-- ==== Sys2Proof/Word.lean ====
section
/-! DEFINITION. The storage word (R4) and its plainest arithmetic: rounding a division up (R8). -/

namespace Sys2Proof

/-- The 32-bit storage word: source values, buffer words, table entries, CMD, ARG, RESULT (R4, R70). -/
abbrev Word := BitVec 32

/-- `ceil(a / b) = floor((a + b - 1) / b)` for `b > 0` (R8). -/
def ceilDiv (a b : Nat) : Nat := (a + b - 1) / b

end Sys2Proof
end

