-- ==== Sys2Proof/Config.lean ====
section
/-! DEFINITION. What an instance of the block fixes (VBITS, NMAX: OPEN in the spec, R5, R6) and the free
values of the spec (R211, U3). The opaque constants have no body: nothing can be proved of their values. -/

namespace Sys2Proof

/-- The two readings of a source word the source allows (R5): `b31` signed, `b32` unsigned. -/
inductive VBits where
  | b31
  | b32
  deriving DecidableEq, Repr, Inhabited

/-- The parameter VBITS as a number (R5). -/
def VBits.toNat : VBits → Nat
  | .b31 => 31
  | .b32 => 32

/-- The parameters of one instance of the block, constants and not registers (R30; log 3). -/
structure Params where
  /-- VBITS, the number of low bits of a source word that may be non-zero (R5; log 1). -/
  vbits : VBits
  /-- NMAX - 1: the type holds exactly the legal values, `1 <= NMAX <= 2^31 - 1` (R6; log 2). -/
  nmaxPred : Fin 2147483647
  deriving DecidableEq, Repr

namespace Params

/-- NMAX, the greatest sequence length a packer unit accepts (R6). -/
def nmax (p : Params) : Nat := p.nmaxPred.val + 1

/-- VBITS as a number (R5). -/
def width (p : Params) : Nat := p.vbits.toNat

end Params

namespace Config

/-- VBITS of the instance that comes out of reset: left OPEN (R5, D1). DESIGN CHOICE, safe: log 1. -/
opaque vbits : VBits

/-- NMAX - 1 of the instance that comes out of reset: left OPEN (R6, D2). DESIGN CHOICE, safe: log 2. -/
opaque nmaxPred : Fin 2147483647

/-- The word SRC holds at an index the host has placed nothing at: "whatever the platform gives" (R211).
A free value. DESIGN CHOICE, safe: log 6. -/
opaque srcPowerOn : Nat → Word

/-- The RESULT of reading an overflow-table entry that does not exist, as a function of the table and the
index (U3: `any value`, STATUS OK). A free value. DESIGN CHOICE, safe: log 8. -/
opaque strayEntry : List Word → Nat → Word

/-- The parameters of the instance that comes out of reset. -/
def params : Params := { vbits := vbits, nmaxPred := nmaxPred }

end Config

end Sys2Proof
end

