-- ==== Sys2Proof/Machine/State.lean ====
section
/-! DEFINITION. The state: the three packer units (R20 to R27), the two host-owned spaces (R50 to R52), the
response of the last command (R30, R75, R76), the instance's parameters (R30) and the host's moves yet to come
(R10, R216); the reasons a step can stop; the state after reset (R33, R210, R211). -/

namespace Sys2Proof.Machine

/-- One listed word of a host-owned space: its word index and its contents (R50; log 5). -/
abbrev Cell := Nat × Word

/-- A host-owned word-indexed space (R50): the words placed in it, by strictly rising index. An index that is
not listed has been given no word yet (R211; log 6, log 7). -/
abbrev Memory := List Cell

/-- The four values of STATUS (R75). -/
inductive Status where
  /-- The command completed. -/
  | ok
  /-- InvalidArgument (R191). -/
  | invalidArgument
  /-- IndexOutOfBounds (R192). -/
  | indexOutOfBounds
  /-- IllegalCommand (R193). -/
  | illegalCommand
  deriving DecidableEq, Repr

/-- The response of a command: (STATUS, RESULT) (R70). -/
structure Response where
  status : Status
  result : Word
  deriving DecidableEq, Repr

/-- Unit X, the Cross-Word Packer (R22). -/
structure XUnit where
  n : BitVec 32
  k : BitVec 6
  buf : List Word
  deriving DecidableEq, Repr

/-- Unit N, the No-Cross Packer (R24). -/
structure NUnit where
  n : BitVec 32
  k : BitVec 6
  fieldsPerWord : BitVec 6
  buf : List Word
  deriving DecidableEq, Repr

/-- Unit O, the Overflow Packer (R26). -/
structure OUnit where
  n : BitVec 32
  petitK : BitVec 6
  bitsChamp : BitVec 6
  overflowCount : BitVec 32
  ovt : List Word
  buf : List Word
  deriving DecidableEq, Repr

/-- A move of the host or its platform (R10, R221; log 4): it writes its own spaces between commands, issues a command,
or powers the block on again. -/
inductive HostMove where
  /-- The host places a word in SRC (R50, R213). -/
  | writeSrc (index : Nat) (value : Word)
  /-- The host places a word in DST, which is its own storage (R50, R218). -/
  | writeDst (index : Nat) (value : Word)
  /-- The host issues the command (CMD, ARG) (R70). -/
  | issue (cmd arg : Word)
  /-- A power-on reset between two commands (R210, R211). Whether the platform may do this, and what survives a loss of
  power, is left open (R204, N1). DESIGN CHOICE, safe: the move exists, and only a list that holds it takes it
  (log 23). -/
  | powerOn
  deriving DecidableEq, Repr

/-- The whole state. -/
structure State where
  /-- VBITS and NMAX: constants of the instance, which no step writes (R30; log 3). -/
  params : Params
  /-- Unit X (R22). -/
  unitX : XUnit
  /-- Unit N (R24). -/
  unitN : NUnit
  /-- Unit O (R26). -/
  unitO : OUnit
  /-- SRC (R50, R51). -/
  src : Memory
  /-- DST (R50, R52). -/
  dst : Memory
  /-- The response of the last command; none before the first (R211). -/
  response : Option Response
  /-- The host's moves yet to come, the next one first; the host's, not the block's (log 4). -/
  host : List HostMove
  deriving DecidableEq, Repr

/-- Why the machine stops with a fault. -/
inductive Fault where
  /-- Raised by GET and DECOMPRESS of a unit whose registers break an invariant of R23, R25 or R27, so that the
  rule reads a buffer word that does not exist, divides by a `fieldsPerWord` of 0, reads a field wider than 33
  bits or returns more than 32 bits. U4: unreachable, `refuse`. Safe (log 9). -/
  | brokenUnit
  deriving DecidableEq, Repr

/-- Why a step gives an instruction no meaning. -/
inductive Refusal where
  /-- Raised by an arm of `exec` whose instruction has no meaning yet. Safe: nothing is claimed of it. -/
  | notModelled (mnemonic : String)
  deriving DecidableEq, Repr

/-- Unit X holding the empty sequence (R33). -/
def XUnit.reset : XUnit := { n := 0, k := 0, buf := [] }

/-- Unit N holding the empty sequence (R33). -/
def NUnit.reset : NUnit := { n := 0, k := 0, fieldsPerWord := 1, buf := [] }

/-- Unit O holding the empty sequence (R33). -/
def OUnit.reset : OUnit :=
  { n := 0, petitK := 0, bitsChamp := 1, overflowCount := 0, ovt := [], buf := [] }

/-- Right after power-on reset: all three units hold the empty sequence (R33, R210), nothing placed in SRC or
DST and no response yet (R211), and the block waits for its first command (R212). -/
def State.reset : State :=
  { params := Config.params
    unitX := XUnit.reset
    unitN := NUnit.reset
    unitO := OUnit.reset
    src := []
    dst := []
    response := none
    host := [] }

end Sys2Proof.Machine
end

