-- ==== Sys2Proof/Machine/Ops.lean ====
section
/-! DEFINITION. The named operations shared by the commands: the two pure functions of unit U (R90, R92), the
value domain (R5), the host-owned spaces (R50 to R52), responding (R70, R76), taking an error (R190 to R198),
and the four operations of the shared contract (R181), each stated once for the three packer units. -/

namespace Sys2Proof.Machine

/-! ### Bit utilities -/

/-- `bitsNeeded(v)`: 0 for 0, else `1 + floor(log2 v)` (R90). -/
def bitsNeeded (v : Nat) : Nat := if v = 0 then 0 else 1 + Nat.log2 v

/-- `maskLow(k)`: the low `k` bits set, all 32 when `k >= 32` (R92). -/
def maskLow (k : Nat) : Word := if k ≤ 31 then BitVec.ofNat 32 (2 ^ k - 1) else BitVec.ofNat 32 (2 ^ 32 - 1)

/-- The value domain, `v < 2^VBITS` (R5), written so that it can be evaluated below `2^31` whatever VBITS is
(lemma `inDomain_iff`; log 22). -/
def inDomain (p : Params) (v : Nat) : Bool :=
  decide (v < 2 ^ 31) || (decide (p.vbits = .b32) && decide (v < 2 ^ 32))

/-- The running maximum of a sequence, 0 for the empty one (R93, D11). -/
def maxOf (vs : List Nat) : Nat := vs.foldl max 0

/-! ### The host-owned spaces -/

/-- The word placed at an index, if one has been (R50; log 6, log 7). -/
def Memory.read : Memory → Nat → Option Word
  | [], _ => none
  | (a, w) :: rest, j => if a = j then some w else Memory.read rest j

/-- Place a word at an index, keeping the indices strictly rising (R50). -/
def Memory.write : Memory → Nat → Word → Memory
  | [], j, v => [(j, v)]
  | (a, w) :: rest, j, v =>
    if j < a then (j, v) :: (a, w) :: rest
    else if j = a then (j, v) :: rest
    else (a, w) :: Memory.write rest j v

/-- Place consecutive words from an index on, in ascending order (R52, R61). -/
def Memory.writeAll : Memory → Nat → List Word → Memory
  | m, _, [] => m
  | m, j, w :: ws => Memory.writeAll (Memory.write m j w) (j + 1) ws

/-- The canonical form: indices strictly rising, so no index is listed twice. An unlisted index has no word,
so no listed word equals what an unlisted index reads as. -/
def Memory.wf : Memory → Bool
  | [] => true
  | [_] => true
  | c :: d :: rest => decide (c.1 < d.1) && Memory.wf (d :: rest)

/-- `MemRead(SRC[j], 32)` (R51): the word the host placed there, else the platform's own (R211; log 6). -/
def State.readSrc (s : State) (j : Nat) : Word := (s.src.read j).getD (Config.srcPowerOn j)

/-- The source sequence `SRC[0 .. n-1]` (R51). -/
def State.source (s : State) (n : Nat) : List Word := (List.range n).map s.readSrc

/-! ### Responding, and taking an error -/

/-- `return v`: STATUS OK and `RESULT = v` (R9, R76). -/
def State.reply (s : State) (v : Word) : State := { s with response := some { status := .ok, result := v } }

/-- `raise e`: taking an error. The status is the failing command's own response, RESULT is 0, and nothing else
changes: no handler, no saved register, no mode, nothing sticky (R76, R190, R194, R195, R197). There is no
return from an error and nothing to restore: the next command is accepted as after OK (R198). -/
def State.raise (s : State) (e : Status) : State := { s with response := some { status := e, result := 0 } }

/-- The end of a command that reads a value from a unit: its response, or the fault of U4 (log 9). -/
def State.answer (s : State) : Option Word → Host.Outcome State Fault Refusal
  | some w => .next (s.reply w)
  | none => .fault .brokenUnit

/-! ### Power-on reset -/

/-- Power-on reset of a running block: all three units hold the empty sequence (R33, R210) and there is no response
(R211). It does not touch SRC and DST (R211), and what the platform does to them follows as writes (log 23). -/
def State.powerOn (s : State) : State :=
  { s with unitX := XUnit.reset, unitN := NUnit.reset, unitO := OUnit.reset, response := none }

/-! ### The shared contract (R181) -/

/-- Every value is in the domain (R191). -/
def allInDomain (p : Params) (vs : List Word) : Bool := vs.all fun v => inDomain p v.toNat

/-- What `compress` accepts: `n <= NMAX`, checked first, then every element in the domain (R191, R196). -/
def State.accepts (s : State) (n : Nat) : Bool :=
  decide (n ≤ s.params.nmax) && allInDomain s.params (s.source n)

/-- `compress`: reject before anything changes (R195), else write the whole packed state of the unit (R21). -/
def compressInto (install : State → List Word → State) (n : Nat) (s : State) : Host.Outcome State Fault Refusal :=
  if s.accepts n then .next ((install s (s.source n)).reply 0) else .next (s.raise .invalidArgument)

/-- `get`: IndexOutOfBounds outside `[0, n)`, else the element (R181, R192). -/
def getElement (n : Word) (element : Nat → Option Word) (i : Int) (s : State) : Host.Outcome State Fault Refusal :=
  if i < 0 ∨ (n.toNat : Int) ≤ i then .next (s.raise .indexOutOfBounds) else s.answer (element i.toNat)

/-- The elements from index `i` on, `count` of them, in ascending order. -/
def collect (element : Nat → Option Word) : (i count : Nat) → Option (List Word)
  | _, 0 => some []
  | i, count + 1 =>
    match element i, collect element (i + 1) count with
    | some w, some ws => some (w :: ws)
    | _, _ => none

/-- `decompress`: InvalidArgument when `dlen != n`, with no word of DST written, else `DST[i] = get(i)` for all
`i` and nothing else (R52, R181, R191). -/
def fillDestination (n : Word) (element : Nat → Option Word) (dlen : Nat) (s : State) :
    Host.Outcome State Fault Refusal :=
  if dlen ≠ n.toNat then .next (s.raise .invalidArgument)
  else match collect element 0 n.toNat with
    | some ws => .next (({ s with dst := s.dst.writeAll 0 ws } : State).reply 0)
    | none => .fault .brokenUnit

/-- `length`: returns `n` (R181). -/
def lengthOf (n : Word) (s : State) : Host.Outcome State Fault Refusal := .next (s.reply n)

/-- A result as a 32-bit RESULT, if it fits (R76); it does in every state the invariants admit (R122, R159). -/
def resultWord (v : Nat) : Option Word := if v < 2 ^ 32 then some (BitVec.ofNat 32 v) else none

end Sys2Proof.Machine
end

