-- ==== Sys2Proof/Machine/FieldAccess.lean ====
section
/-! DEFINITION. The packer and unpacker datapath shared by units X and O: `write_field` and `read_field`
(R105 to R109), and the bits of a packed buffer (R55). -/

namespace Sys2Proof.Machine

/-- Bit position `p` of a buffer: bit `p % 32` of word `p / 32` (R55); no word, no bit set. -/
def bufBit (B : List Word) (p : Nat) : Bool := (B.getD (p / 32) 0).getLsbD (p % 32)

/-- A buffer of `len` words, each 0 (R53). -/
def zeroBuffer (len : Nat) : List Word := List.replicate len 0

/-- `MemWrite(B[j], 32, MemRead(B[j], 32) | v)`, for `v < 2^32` (R58, R106). COMPRESS calls it inside the buffer
only (R59; log 16). -/
def orWord (B : List Word) (j v : Nat) : List Word := B.modify j fun x => x ||| BitVec.ofNat 32 v

/-- `write_field(B, p, w, v)` (R106, R107). -/
def writeField (B : List Word) (p w v : Nat) : List Word :=
  if w = 0 then B
  else
    let f := v % 2 ^ w
    let word := p / 32
    let offset := p % 32
    if offset + w ≤ 32 then orWord B word (f <<< offset)
    else
      let lowbits := 32 - offset
      orWord (orWord B word ((f % 2 ^ lowbits) <<< offset)) (word + 1) (f >>> lowbits)

/-- `read_field(B, p, w)` for `w <= 33` (R105, R107, R109); none where a word it reads does not exist (U4). -/
def readField (B : List Word) (p w : Nat) : Option Nat :=
  if w = 0 then some 0
  else if 33 < w then none
  else
    let word := p / 32
    let offset := p % 32
    if offset + w ≤ 32 then
      match B[word]? with
      | some x => some ((x.toNat >>> offset) % 2 ^ w)
      | none => none
    else
      let lowbits := 32 - offset
      let hibits := w - lowbits
      match B[word]?, B[word + 1]? with
      | some x0, some x1 => some ((x0.toNat >>> offset) ||| ((x1.toNat % 2 ^ hibits) <<< lowbits))
      | _, _ => none

/-- The fields `fs` written end to end from index `i` on, each `w` bits wide, in ascending order
(R121 step 4, R156). -/
def writeFields (w : Nat) : (i : Nat) → List Nat → List Word → List Word
  | _, [], B => B
  | i, f :: fs, B => writeFields w (i + 1) fs (writeField B (i * w) w f)

end Sys2Proof.Machine
end

