-- ==== Sys2Proof/Machine/CrossWord.lean ====
section
/-! DEFINITION. Unit X, the Cross-Word Packer: CREATE.X (R120), COMPRESS.X (R121), GET.X (R122), DECOMPRESS.X
(R123), LENGTH.X (R124). -/

namespace Sys2Proof.Machine

/-- The field width of units X and N: `min(bitsNeeded(max), 32)` (R121 step 2, R136). -/
def fieldWidth (vs : List Word) : Nat := min (bitsNeeded (maxOf (vs.map BitVec.toNat))) 32

/-- The packed state of unit X for a sequence (R121 steps 2 to 4). -/
def packX (vs : List Word) : XUnit :=
  let n := vs.length
  let k := fieldWidth vs
  { n := BitVec.ofNat 32 n
    k := BitVec.ofNat 6 k
    buf := writeFields k 0 (vs.map fun v => (v &&& maskLow k).toNat) (zeroBuffer (ceilDiv (n * k) 32)) }

/-- Element `i` of unit X: `read_field(X.buf, i * X.k, X.k)` (R122). -/
def XUnit.element (u : XUnit) (i : Nat) : Option Word :=
  (readField u.buf (i * u.k.toNat) u.k.toNat).bind resultWord

/-- CREATE.X (R120). -/
def execCreateX (_arg : Word) (s : State) : Host.Outcome State Fault Refusal :=
  .next (({ s with unitX := XUnit.reset } : State).reply 0)

/-- COMPRESS.X (R121). -/
def execCompressX (n : Nat) (s : State) : Host.Outcome State Fault Refusal :=
  compressInto (fun s vs => { s with unitX := packX vs }) n s

/-- GET.X (R122). -/
def execGetX (i : Int) (s : State) : Host.Outcome State Fault Refusal :=
  getElement s.unitX.n s.unitX.element i s

/-- DECOMPRESS.X (R123). -/
def execDecompressX (dlen : Nat) (s : State) : Host.Outcome State Fault Refusal :=
  fillDestination s.unitX.n s.unitX.element dlen s

/-- LENGTH.X (R124). -/
def execLengthX (_arg : Word) (s : State) : Host.Outcome State Fault Refusal := lengthOf s.unitX.n s

end Sys2Proof.Machine
end

