-- ==== Sys2Proof/Machine/NoCross.lean ====
section
/-! DEFINITION. Unit N, the No-Cross Packer: CREATE.N (R135), COMPRESS.N (R136, R137), GET.N (R138),
DECOMPRESS.N (R139), LENGTH.N (R140). It does not use `write_field` and `read_field`. -/

namespace Sys2Proof.Machine

/-- `fieldsPerWord(k)`: 1 for `k = 0`, else `floor(32 / k)` (R137). -/
def fieldsPerWord (k : Nat) : Nat := if k = 0 then 1 else 32 / k

/-- The slots filled from index `i` on, in ascending order (R136, the last loop). -/
def writeSlots (fpw k : Nat) : (i : Nat) → List Word → List Word → List Word
  | _, [], B => B
  | i, v :: vs, B =>
    writeSlots fpw k (i + 1) vs (orWord B (i / fpw) ((v &&& maskLow k).toNat <<< (i % fpw * k)))

/-- The packed state of unit N for a sequence (R136). -/
def packN (vs : List Word) : NUnit :=
  let n := vs.length
  let k := fieldWidth vs
  let fpw := fieldsPerWord k
  { n := BitVec.ofNat 32 n
    k := BitVec.ofNat 6 k
    fieldsPerWord := BitVec.ofNat 6 fpw
    buf := writeSlots fpw k 0 vs (zeroBuffer (ceilDiv n fpw)) }

/-- Element `i` of unit N: `(MemRead(N.buf[word], 32) >> offset) & maskLow(N.k)` (R138); none where the word
does not exist or `fieldsPerWord` is 0 (U4). -/
def NUnit.element (u : NUnit) (i : Nat) : Option Word :=
  if u.fieldsPerWord.toNat = 0 then none
  else
    match u.buf[i / u.fieldsPerWord.toNat]? with
    | some x => some ((x >>> (i % u.fieldsPerWord.toNat * u.k.toNat)) &&& maskLow u.k.toNat)
    | none => none

/-- CREATE.N (R135). -/
def execCreateN (_arg : Word) (s : State) : Host.Outcome State Fault Refusal :=
  .next (({ s with unitN := NUnit.reset } : State).reply 0)

/-- COMPRESS.N (R136). -/
def execCompressN (n : Nat) (s : State) : Host.Outcome State Fault Refusal :=
  compressInto (fun s vs => { s with unitN := packN vs }) n s

/-- GET.N (R138). -/
def execGetN (i : Int) (s : State) : Host.Outcome State Fault Refusal :=
  getElement s.unitN.n s.unitN.element i s

/-- DECOMPRESS.N (R139). -/
def execDecompressN (dlen : Nat) (s : State) : Host.Outcome State Fault Refusal :=
  fillDestination s.unitN.n s.unitN.element dlen s

/-- LENGTH.N (R140). -/
def execLengthN (_arg : Word) (s : State) : Host.Outcome State Fault Refusal := lengthOf s.unitN.n s

end Sys2Proof.Machine
end

