-- ==== Sys2Proof/Machine/Flags.lean ====
section
/-! DEFINITION. The only flag-like values of the block (R34): the STATUS code of a response (R75), and the flag
bit of a stored field of unit O with its encoder and decoder (R150, R151). -/

namespace Sys2Proof.Machine

/-- The 2-bit STATUS code (R75). -/
def Status.code : Status → BitVec 2
  | .ok => 0
  | .invalidArgument => 1
  | .indexOutOfBounds => 2
  | .illegalCommand => 3

/-- `encField(flag, content) = (content << 1) | flag` (R150). -/
def encField (flag content : Nat) : Nat := (content <<< 1) ||| flag

/-- `decField(field) = (flag, content)`: the low bit and the remaining high bits (R151). -/
def decField (field : Nat) : Nat × Nat := (field % 2, field >>> 1)

end Sys2Proof.Machine
end

