-- ==== Sys2Proof/Machine/Overflow.lean ====
section
/-! DEFINITION. Unit O, the Overflow Packer, with the field-width search engine (R152, R153): CREATE.O (R155),
COMPRESS.O (R156 to R158), GET.O (R159), DECOMPRESS.O (R160), LENGTH.O (R161). -/

namespace Sys2Proof.Machine

/-- The widths `b[i] = bitsNeeded(v[i])` (R152, R156 step 2). -/
def widthsOf (vs : List Word) : List Nat := vs.map fun v => bitsNeeded v.toNat

/-- `overflowCount(k)`: the number of `i` with `b[i] > k` (R152). -/
def overflowCountAt (bs : List Nat) (k : Nat) : Nat := bs.countP fun b => decide (k < b)

/-- The bits needed to index an overflow table of `count` entries: 0 for none (R26, R152). -/
def indexBits (count : Nat) : Nat := if 0 < count then bitsNeeded (count - 1) else 0

/-- `fieldBits(k) = 1 + max(k, bitsIndex(k))` (R152). -/
def fieldBits (bs : List Nat) (k : Nat) : Nat := 1 + max k (indexBits (overflowCountAt bs k))

/-- `totalBits(k) = n * fieldBits(k) + overflowCount(k) * 32` (R152). -/
def totalBits (bs : List Nat) (k : Nat) : Nat := bs.length * fieldBits bs k + overflowCountAt bs k * 32

/-- The greatest candidate, `max(1, bitsMax)` (R153, C2). -/
def lastCandidate (bs : List Nat) : Nat := max 1 (maxOf bs)

/-- One turn of the search's loop: `(bestK, bestTot)` is replaced only by a strictly better candidate (R153). -/
def betterOf (bs : List Nat) (best : Nat × Nat) (k : Nat) : Nat × Nat :=
  if totalBits bs k < best.2 then (k, totalBits bs k) else best

/-- The candidate the search selects: from 0, through `1 .. lastCandidate` in ascending order (R153). -/
def bestWidth (bs : List Nat) : Nat :=
  (((List.range (lastCandidate bs)).map (· + 1)).foldl (betterOf bs) (0, totalBits bs 0)).1

/-- A value overflows when it needs more than `petitK` bits (R156 step 5, R158). -/
def overflows (petitK : Nat) (v : Word) : Bool := decide (petitK < bitsNeeded v.toNat)

/-- The fields in ascending order, `rank` overflow occurrences having been seen before (R156 steps 5 and 6). -/
def overflowFields (petitK bitsChamp : Nat) : (rank : Nat) → List Word → List Nat
  | _, [] => []
  | rank, v :: vs =>
    if overflows petitK v then encField 1 rank :: overflowFields petitK bitsChamp (rank + 1) vs
    else encField 0 (v &&& maskLow (bitsChamp - 1)).toNat :: overflowFields petitK bitsChamp rank vs

/-- The packed state of unit O for a sequence (R156): the table is the overflowing values in input order (R157;
D25, log 17). -/
def packO (vs : List Word) : OUnit :=
  let n := vs.length
  let bs := widthsOf vs
  let petitK := bestWidth bs
  let bitsChamp := fieldBits bs petitK
  { n := BitVec.ofNat 32 n
    petitK := BitVec.ofNat 6 petitK
    bitsChamp := BitVec.ofNat 6 bitsChamp
    overflowCount := BitVec.ofNat 32 (overflowCountAt bs petitK)
    ovt := vs.filter (overflows petitK)
    buf := writeFields bitsChamp 0 (overflowFields petitK bitsChamp 0 vs)
      (zeroBuffer (ceilDiv (n * bitsChamp) 32)) }

/-- `MemRead(O.ovt[content], 32)` (R159); an entry that does not exist is a free value (U3; log 8). -/
def OUnit.entry (u : OUnit) (content : Nat) : Word := (u.ovt[content]?).getD (Config.strayEntry u.ovt content)

/-- The value a field stands for: its content, or the table entry it refers to (R159). -/
def OUnit.valueOf (u : OUnit) (field : Nat) : Option Word :=
  if (decField field).1 = 0 then resultWord (decField field).2 else some (u.entry (decField field).2)

/-- Element `i` of unit O (R159). -/
def OUnit.element (u : OUnit) (i : Nat) : Option Word :=
  (readField u.buf (i * u.bitsChamp.toNat) u.bitsChamp.toNat).bind u.valueOf

/-- CREATE.O (R155). -/
def execCreateO (_arg : Word) (s : State) : Host.Outcome State Fault Refusal :=
  .next (({ s with unitO := OUnit.reset } : State).reply 0)

/-- COMPRESS.O (R156). -/
def execCompressO (n : Nat) (s : State) : Host.Outcome State Fault Refusal :=
  compressInto (fun s vs => { s with unitO := packO vs }) n s

/-- GET.O (R159). -/
def execGetO (i : Int) (s : State) : Host.Outcome State Fault Refusal :=
  getElement s.unitO.n s.unitO.element i s

/-- DECOMPRESS.O (R160). -/
def execDecompressO (dlen : Nat) (s : State) : Host.Outcome State Fault Refusal :=
  fillDestination s.unitO.n s.unitO.element dlen s

/-- LENGTH.O (R161). -/
def execLengthO (_arg : Word) (s : State) : Host.Outcome State Fault Refusal := lengthOf s.unitO.n s

end Sys2Proof.Machine
end

