-- ==== Sys2Proof/Machine/Utilities.lean ====
section
/-! DEFINITION. The commands of unit U: BITSNEEDED (R94) and MASKLOW (R95). -/

namespace Sys2Proof.Machine

/-- BITSNEEDED (R94). -/
def execBitsNeeded (v : Nat) (s : State) : Host.Outcome State Fault Refusal :=
  if inDomain s.params v then .next (s.reply (BitVec.ofNat 32 (bitsNeeded v)))
  else .next (s.raise .invalidArgument)

/-- MASKLOW (R95). -/
def execMaskLow (k : Nat) (s : State) : Host.Outcome State Fault Refusal := .next (s.reply (maskLow k))

end Sys2Proof.Machine
end

