-- ==== Sys2Proof/Syntax.lean ====
section
/-! DEFINITION. The 17 commands (R78), one constructor per row of the opcode table, with the operand ARG as
R74 reads it: a natural number where the rule says `zext_32`, an integer where it says `sext_32`, the bare
word where ARG is ignored. -/

namespace Sys2Proof

/-- A decoded command: CMD and the assembled operand (R74, R78). -/
inductive Instr where
  /-- BITSNEEDED: `v = zext_32(ARG)` (R94). -/
  | bitsNeeded (v : Nat)
  /-- MASKLOW: `k = zext_32(ARG)` (R95). -/
  | maskLow (k : Nat)
  /-- CREATE.X: ARG ignored (R120). -/
  | createX (arg : Word)
  /-- COMPRESS.X: `n = zext_32(ARG)` (R121). -/
  | compressX (n : Nat)
  /-- GET.X: `i = sext_32(ARG)` (R122). -/
  | getX (i : Int)
  /-- DECOMPRESS.X: `dlen = zext_32(ARG)` (R123). -/
  | decompressX (dlen : Nat)
  /-- LENGTH.X: ARG ignored (R124). -/
  | lengthX (arg : Word)
  /-- CREATE.N: ARG ignored (R135). -/
  | createN (arg : Word)
  /-- COMPRESS.N: `n = zext_32(ARG)` (R136). -/
  | compressN (n : Nat)
  /-- GET.N: `i = sext_32(ARG)` (R138). -/
  | getN (i : Int)
  /-- DECOMPRESS.N: `dlen = zext_32(ARG)` (R139). -/
  | decompressN (dlen : Nat)
  /-- LENGTH.N: ARG ignored (R140). -/
  | lengthN (arg : Word)
  /-- CREATE.O: ARG ignored (R155). -/
  | createO (arg : Word)
  /-- COMPRESS.O: `n = zext_32(ARG)` (R156). -/
  | compressO (n : Nat)
  /-- GET.O: `i = sext_32(ARG)` (R159). -/
  | getO (i : Int)
  /-- DECOMPRESS.O: `dlen = zext_32(ARG)` (R160). -/
  | decompressO (dlen : Nat)
  /-- LENGTH.O: ARG ignored (R161). -/
  | lengthO (arg : Word)
  deriving DecidableEq, Repr

end Sys2Proof
end

