-- ==== Sys2Proof/Machine/Dispatch.lean ====
section
/-! DEFINITION. One arm per command, each one call of its own meaning (R78, R184). -/

namespace Sys2Proof.Machine

def exec (i : Instr) (s : State) : Host.Outcome State Fault Refusal :=
  match i with
  | .bitsNeeded v => Sys2Proof.Machine.execBitsNeeded v s
  | .maskLow k => Sys2Proof.Machine.execMaskLow k s
  | .createX arg => Sys2Proof.Machine.execCreateX arg s
  | .compressX n => Sys2Proof.Machine.execCompressX n s
  | .getX index => Sys2Proof.Machine.execGetX index s
  | .decompressX dlen => Sys2Proof.Machine.execDecompressX dlen s
  | .lengthX arg => Sys2Proof.Machine.execLengthX arg s
  | .createN arg => Sys2Proof.Machine.execCreateN arg s
  | .compressN n => Sys2Proof.Machine.execCompressN n s
  | .getN index => Sys2Proof.Machine.execGetN index s
  | .decompressN dlen => Sys2Proof.Machine.execDecompressN dlen s
  | .lengthN arg => Sys2Proof.Machine.execLengthN arg s
  | .createO arg => Sys2Proof.Machine.execCreateO arg s
  | .compressO n => Sys2Proof.Machine.execCompressO n s
  | .getO index => Sys2Proof.Machine.execGetO index s
  | .decompressO dlen => Sys2Proof.Machine.execDecompressO dlen s
  | .lengthO arg => Sys2Proof.Machine.execLengthO arg s

end Sys2Proof.Machine
end

