-- ==== Sys2Proof/Machine/Operands.lean ====
section
/-! DEFINITION. Operand assembly: the two ways R74 reads the ARG word, and the ARG word that gives an operand
back (for the encoder). No operand is assembled from CMD bits (R74). -/

namespace Sys2Proof.Machine

/-- `zext_32`: the word as a natural number in `[0, 2^32 - 1]` (R9). -/
def zext32 (w : Word) : Nat := w.toNat

/-- `sext_32`: the word as a two's-complement integer in `[-2^31, 2^31 - 1]` (R9; G1, log 14). -/
def sext32 (w : Word) : Int := w.toInt

/-- The ARG word whose `zext_32` is `v`, for `v < 2^32`. -/
def argOfNat (v : Nat) : Word := BitVec.ofNat 32 v

/-- The ARG word whose `sext_32` is `i`, for `-2^31 <= i < 2^31`. -/
def argOfInt (i : Int) : Word := BitVec.ofInt 32 i

end Sys2Proof.Machine
end

