-- ==== Sys2Proof/WellFormed.lean ====
section
/-! DEFINITION. Which terms of `Instr` are commands a host can present: the operand is one a 32-bit ARG can
hold under the reading R74 gives it. R74 accepts every ARG, so there is no other check. -/

namespace Sys2Proof

/-- The range of `zext_32` (R9). -/
def fitsZext (v : Nat) : Bool := decide (v < 2 ^ 32)

/-- The range of `sext_32` (R9; two's complement, G1: log 14). -/
def fitsSext (i : Int) : Bool := decide (-2147483648 ≤ i) && decide (i < 2147483648)

/-- The operand is one that ARG can hold (R74). -/
def Instr.wellFormed : Instr → Bool
  | .bitsNeeded v => fitsZext v
  | .maskLow k => fitsZext k
  | .createX _ => true
  | .compressX n => fitsZext n
  | .getX i => fitsSext i
  | .decompressX dlen => fitsZext dlen
  | .lengthX _ => true
  | .createN _ => true
  | .compressN n => fitsZext n
  | .getN i => fitsSext i
  | .decompressN dlen => fitsZext dlen
  | .lengthN _ => true
  | .createO _ => true
  | .compressO n => fitsZext n
  | .getO i => fitsSext i
  | .decompressO dlen => fitsZext dlen
  | .lengthO _ => true

end Sys2Proof
end

