-- ==== Sys2Proof/Decode.lean ====
section
/-! DEFINITION. The decoder of a command (R77), total on every pair of words (CMD, ARG) and rejecting by name
(R79), and after it the encoder, written from the same table (R71 to R73, R78). -/

namespace Sys2Proof

open Sys2Proof.Machine

/-- The four values of the `unit` field (R72). -/
inductive UnitTag where
  | u
  | x
  | n
  | o
  deriving DecidableEq, Repr

/-- Why a CMD word selects no command: the three kinds of illegal word of R79. -/
inductive Illegal where
  /-- A non-zero bit in `CMD[31:6]`. -/
  | zeroField
  /-- `unit = 0` with `op` in `2 .. 15`. -/
  | reservedUtilityOp
  /-- `unit` in `1 .. 3` with `op` in `5 .. 15`. -/
  | reservedPackerOp
  deriving DecidableEq, Repr

/-- The field `zero`, `CMD[31:6]` (R71). -/
def zeroField (cmd : Word) : Nat := cmd.toNat / 64

/-- The field `unit`, `CMD[5:4]` (R71). -/
def unitField (cmd : Word) : Nat := cmd.toNat / 16 % 4

/-- The field `op`, `CMD[3:0]` (R71). -/
def opField (cmd : Word) : Nat := cmd.toNat % 16

/-- The unit that executes the command: the Codec Factory's selection (R72, R180). -/
def unitOfField : Nat → UnitTag
  | 0 => .u
  | 1 => .x
  | 2 => .n
  | _ => .o

/-- The operation of a unit, with its operand read as R74 says (R73, R77). -/
def decodeOp (tag : UnitTag) (op : Nat) (arg : Word) : Except Illegal Instr :=
  match tag, op with
  | .u, 0 => .ok (.bitsNeeded (zext32 arg))
  | .u, 1 => .ok (.maskLow (zext32 arg))
  | .u, _ => .error .reservedUtilityOp
  | .x, 0 => .ok (.createX arg)
  | .x, 1 => .ok (.compressX (zext32 arg))
  | .x, 2 => .ok (.getX (sext32 arg))
  | .x, 3 => .ok (.decompressX (zext32 arg))
  | .x, 4 => .ok (.lengthX arg)
  | .x, _ => .error .reservedPackerOp
  | .n, 0 => .ok (.createN arg)
  | .n, 1 => .ok (.compressN (zext32 arg))
  | .n, 2 => .ok (.getN (sext32 arg))
  | .n, 3 => .ok (.decompressN (zext32 arg))
  | .n, 4 => .ok (.lengthN arg)
  | .n, _ => .error .reservedPackerOp
  | .o, 0 => .ok (.createO arg)
  | .o, 1 => .ok (.compressO (zext32 arg))
  | .o, 2 => .ok (.getO (sext32 arg))
  | .o, 3 => .ok (.decompressO (zext32 arg))
  | .o, 4 => .ok (.lengthO arg)
  | .o, _ => .error .reservedPackerOp

/-- The decode algorithm of R77: it reads CMD alone to select the command, never the state. -/
def decode (cmd arg : Word) : Except Illegal Instr :=
  if zeroField cmd ≠ 0 then .error .zeroField
  else decodeOp (unitOfField (unitField cmd)) (opField cmd) arg

/-- The CMD word made of the fields `unit` and `op`, `zero` being 0 (R71). -/
def commandWord (unit op : Nat) : Word := BitVec.ofNat 32 (unit * 16 + op)

/-- The words (CMD, ARG) of a command (R70 to R74, R78). -/
def encode : Instr → Word × Word
  | .bitsNeeded v => (commandWord 0 0, argOfNat v)
  | .maskLow k => (commandWord 0 1, argOfNat k)
  | .createX arg => (commandWord 1 0, arg)
  | .compressX n => (commandWord 1 1, argOfNat n)
  | .getX i => (commandWord 1 2, argOfInt i)
  | .decompressX dlen => (commandWord 1 3, argOfNat dlen)
  | .lengthX arg => (commandWord 1 4, arg)
  | .createN arg => (commandWord 2 0, arg)
  | .compressN n => (commandWord 2 1, argOfNat n)
  | .getN i => (commandWord 2 2, argOfInt i)
  | .decompressN dlen => (commandWord 2 3, argOfNat dlen)
  | .lengthN arg => (commandWord 2 4, arg)
  | .createO arg => (commandWord 3 0, arg)
  | .compressO n => (commandWord 3 1, argOfNat n)
  | .getO i => (commandWord 3 2, argOfInt i)
  | .decompressO dlen => (commandWord 3 3, argOfNat dlen)
  | .lengthO arg => (commandWord 3 4, arg)

/-- The CMD word of an instruction numbered as the opcode table numbers it: bits 31..0. -/
def cmdOfTableWord (nbits w : Nat) : Word := BitVec.ofNat 32 (w % 2 ^ nbits)

/-- The ARG word of an instruction numbered as the opcode table numbers it: bits 63..32. The table gives its
rows 32 bits, so ARG is the operand word of zeros. -/
def argOfTableWord (nbits w : Nat) : Word := BitVec.ofNat 32 (w % 2 ^ nbits / 2 ^ 32)

/-- The instruction the decoder reads from an instruction whose low `nbits` bits are `w`, the rest 0. -/
def decodeTableWord (nbits w : Nat) : Option Instr :=
  match decode (cmdOfTableWord nbits w) (argOfTableWord nbits w) with
  | .ok i => some i
  | .error _ => none

end Sys2Proof
end

