-- ==== Sys2Proof/Machine/Fetch.lean ====
section
/-! DEFINITION. What comes before a command runs: taking the host's next move and decoding the command it issues
(R10, R63, R70, R77). A host write, a power-on reset and an idle step involve no command; a word that selects no command is
answered with IllegalCommand (R79, R193). -/

namespace Sys2Proof.Machine

/-- What a step finds to do: nothing more (the state it leaves), or a decoded command to run. -/
inductive Fetched where
  | done (s : State)
  | run (i : Instr) (s : State)
  deriving DecidableEq, Repr

/-- The block's side of an issued command, before it runs: decode CMD and ARG (R77), or raise IllegalCommand
with nothing written and SRC not read (R79). -/
def State.receive (s : State) (cmd arg : Word) : Fetched :=
  match decode cmd arg with
  | .ok i => .run i s
  | .error _ => .done (s.raise .illegalCommand)

/-- Take the host's next move (log 4). With none waiting the block is idle and holds its state (R204, R212). -/
def State.fetch (s : State) : Fetched :=
  match s.host with
  | [] => .done s
  | .writeSrc j v :: rest => .done { s with src := s.src.write j v, host := rest }
  | .writeDst j v :: rest => .done { s with dst := s.dst.write j v, host := rest }
  | .powerOn :: rest => .done ({ s with host := rest } : State).powerOn
  | .issue cmd arg :: rest => ({ s with host := rest } : State).receive cmd arg

/-- Put a command before the host's other moves, so that the next step runs it (log 18). -/
def State.present (s : State) (cmd arg : Word) : State := { s with host := .issue cmd arg :: s.host }

end Sys2Proof.Machine
end

