-- ==== Sys2Proof/Machine/Step.lean ====
section
/-! DEFINITION. One step: the host's next move, a whole command when the move issues one (R10). -/

namespace Sys2Proof.Machine

/-- A step takes the host's next move and runs the command it issues, if it issues one (R10). -/
def step (s : State) : Host.Outcome State Fault Refusal :=
  match s.fetch with
  | .done t => .next t
  | .run i t => exec i t

/-- The state in which the next step runs the instruction whose low `nbits` bits are `w`, the others 0: the host
presents it next (log 18). -/
def State.withFetchWord (s : State) (nbits w : Nat) : State :=
  s.present (cmdOfTableWord nbits w) (argOfTableWord nbits w)

end Sys2Proof.Machine
end

