-- ==== Sys2Proof/Machine/Assembler.lean ====
section
/-! DEFINITION. The textual commands of R82 as data, and the host moves each stands for: COMPRESS sets SRC to the
listed values and ARG to their number; CREATE and LENGTH set ARG to 0. -/

namespace Sys2Proof.Machine

/-- The codec kinds of `create` (R82, D21): CROSS, NOCROSS, OVERFLOW. -/
inductive CodecKind where
  | cross
  | nocross
  | overflow
  deriving DecidableEq, Repr

/-- A line of R82. -/
inductive AsmLine where
  | bitsNeeded (v : Nat)
  | maskLow (k : Nat)
  | create (u : CodecKind)
  | compress (u : CodecKind) (values : List Word)
  | get (u : CodecKind) (i : Int)
  | decompress (u : CodecKind) (dlen : Nat)
  | length (u : CodecKind)
  deriving DecidableEq, Repr

/-- The command a line assembles to (R82). -/
def AsmLine.instr : AsmLine → Instr
  | .bitsNeeded v => .bitsNeeded v
  | .maskLow k => .maskLow k
  | .create .cross => .createX 0
  | .create .nocross => .createN 0
  | .create .overflow => .createO 0
  | .compress .cross vs => .compressX vs.length
  | .compress .nocross vs => .compressN vs.length
  | .compress .overflow vs => .compressO vs.length
  | .get .cross i => .getX i
  | .get .nocross i => .getN i
  | .get .overflow i => .getO i
  | .decompress .cross dlen => .decompressX dlen
  | .decompress .nocross dlen => .decompressN dlen
  | .decompress .overflow dlen => .decompressO dlen
  | .length .cross => .lengthX 0
  | .length .nocross => .lengthN 0
  | .length .overflow => .lengthO 0

/-- The writes `SRC[j] = vj` from index `j` on (R82). -/
def sourceMoves : (j : Nat) → List Word → List HostMove
  | _, [] => []
  | j, v :: vs => .writeSrc j v :: sourceMoves (j + 1) vs

/-- The values a line lists for SRC. -/
def AsmLine.values : AsmLine → List Word
  | .compress _ vs => vs
  | .bitsNeeded _ | .maskLow _ | .create _ | .get _ _ | .decompress _ _ | .length _ => []

/-- The host's moves for a line: first the values, then the command (R82). -/
def AsmLine.moves (l : AsmLine) : List HostMove :=
  sourceMoves 0 l.values ++ [.issue (encode l.instr).1 (encode l.instr).2]

end Sys2Proof.Machine
end

