-- ==== Sys2Proof/Safety.lean ====
section
/-! DEFINITION. The invariants of the three packer units, true after reset and after every command (R23, R25,
R27), the invariant of the whole state, and which commands belong to which unit (R72, R182). Claims are stated in
these terms. -/

namespace Sys2Proof.Machine

/-- The invariants of unit X (R23). -/
structure XUnit.Inv (p : Params) (u : XUnit) : Prop where
  n_le : u.n.toNat ≤ p.nmax
  k_le : u.k.toNat ≤ min 32 p.width
  len : u.buf.length = ceilDiv (u.n.toNat * u.k.toNat) 32
  /-- Unused trailing bits are zero. -/
  tail : ∀ q, u.n.toNat * u.k.toNat ≤ q → bufBit u.buf q = false

/-- The invariants of unit N (R25). -/
structure NUnit.Inv (p : Params) (u : NUnit) : Prop where
  n_le : u.n.toNat ≤ p.nmax
  k_le : u.k.toNat ≤ min 32 p.width
  fpw : u.fieldsPerWord.toNat = Machine.fieldsPerWord u.k.toNat
  len : u.buf.length = ceilDiv u.n.toNat u.fieldsPerWord.toNat
  /-- In every word the bits above the slots are zero. -/
  top : ∀ j b, b < 32 → u.fieldsPerWord.toNat * u.k.toNat ≤ b → bufBit u.buf (32 * j + b) = false
  /-- In the last word the slots after the last element are zero. -/
  last : ∀ slot b, slot < u.fieldsPerWord.toNat → b < u.k.toNat →
    u.n.toNat ≤ (u.buf.length - 1) * u.fieldsPerWord.toNat + slot →
    bufBit u.buf (32 * (u.buf.length - 1) + (slot * u.k.toNat + b)) = false

/-- Field `i` of unit O, as `read_field` gives it (R27). -/
def OUnit.field (u : OUnit) (i : Nat) : Option Nat := readField u.buf (i * u.bitsChamp.toNat) u.bitsChamp.toNat

/-- The content of field `i` if its flag is set. -/
def OUnit.flaggedContent (u : OUnit) (i : Nat) : Option Nat :=
  match u.field i with
  | some f => if (decField f).1 = 1 then some (decField f).2 else none
  | none => none

/-- The contents of the flagged fields, in ascending order of the index (R27). -/
def OUnit.flaggedContents (u : OUnit) : List Nat := (List.range u.n.toNat).filterMap u.flaggedContent

/-- The invariants of unit O (R27). -/
structure OUnit.Inv (p : Params) (u : OUnit) : Prop where
  n_le : u.n.toNat ≤ p.nmax
  count_le : u.overflowCount.toNat ≤ u.n.toNat
  petitK_le : u.petitK.toNat ≤ p.width
  bitsChamp_eq : u.bitsChamp.toNat = 1 + max u.petitK.toNat (indexBits u.overflowCount.toNat)
  len : u.buf.length = ceilDiv (u.n.toNat * u.bitsChamp.toNat) 32
  /-- Unused trailing bits are zero. -/
  tail : ∀ q, u.n.toNat * u.bitsChamp.toNat ≤ q → bufBit u.buf q = false
  /-- The flagged fields are `overflowCount` many, with contents 0, 1, 2, ... in ascending order. -/
  flagged : u.flaggedContents = List.range u.overflowCount.toNat
  /-- An unflagged content is a value that fits `petitK` bits. -/
  unflagged : ∀ i f, i < u.n.toNat → u.field i = some f → (decField f).1 = 0 →
    bitsNeeded (decField f).2 ≤ u.petitK.toNat
  ovt_len : u.ovt.length = u.overflowCount.toNat
  /-- Every table entry needed more than `petitK` bits. -/
  ovt_wide : ∀ w ∈ u.ovt, u.petitK.toNat < bitsNeeded w.toNat

/-- The invariant of the whole state: the three units hold theirs, and SRC and DST are in canonical form. -/
structure State.Inv (s : State) : Prop where
  unitX : s.unitX.Inv s.params
  unitN : s.unitN.Inv s.params
  unitO : s.unitO.Inv s.params
  src : s.src.wf = true
  dst : s.dst.wf = true

/-- The 17 CMD words of the opcode map (R78). -/
def commandWords : List Word :=
  [0x00000000, 0x00000001, 0x00000010, 0x00000011, 0x00000012, 0x00000013, 0x00000014, 0x00000020, 0x00000021,
   0x00000022, 0x00000023, 0x00000024, 0x00000030, 0x00000031, 0x00000032, 0x00000033, 0x00000034]

/-- What COMPRESS accepts: `n <= NMAX` and every word of `SRC[0 .. n-1]` in the value domain (R121, R136, R156). -/
def sourceAccepted (s : State) (n : Nat) : Prop :=
  n ≤ s.params.nmax ∧ ∀ j, j < n → (s.readSrc j).toNat < 2 ^ s.params.width

/-- The statuses a command may answer with (R202). -/
def allowedStatus (p : Params) : Instr → Status → Prop
  | .bitsNeeded _, e => e = .ok ∨ e = .invalidArgument ∧ p.vbits = .b31
  | .maskLow _, e => e = .ok
  | .createX _, e | .createN _, e | .createO _, e => e = .ok
  | .compressX _, e | .compressN _, e | .compressO _, e => e = .ok ∨ e = .invalidArgument
  | .getX _, e | .getN _, e | .getO _, e => e = .ok ∨ e = .indexOutOfBounds
  | .decompressX _, e | .decompressN _, e | .decompressO _, e => e = .ok ∨ e = .invalidArgument
  | .lengthX _, e | .lengthN _, e | .lengthO _, e => e = .ok

/-- The unit that executes a command (R72). -/
def unitOf : Instr → UnitTag
  | .bitsNeeded _ | .maskLow _ => .u
  | .createX _ | .compressX _ | .getX _ | .decompressX _ | .lengthX _ => .x
  | .createN _ | .compressN _ | .getN _ | .decompressN _ | .lengthN _ => .n
  | .createO _ | .compressO _ | .getO _ | .decompressO _ | .lengthO _ => .o

/-- The commands that may write their unit's registers: CREATE and COMPRESS (R21). -/
def writesUnit : Instr → Bool
  | .createX _ | .compressX _ | .createN _ | .compressN _ | .createO _ | .compressO _ => true
  | .bitsNeeded _ | .maskLow _ | .getX _ | .decompressX _ | .lengthX _ | .getN _ | .decompressN _ | .lengthN _
  | .getO _ | .decompressO _ | .lengthO _ => false

/-- The commands that may write DST: DECOMPRESS (R50, R52). -/
def writesDst : Instr → Bool
  | .decompressX _ | .decompressN _ | .decompressO _ => true
  | .bitsNeeded _ | .maskLow _ | .createX _ | .compressX _ | .getX _ | .lengthX _ | .createN _ | .compressN _
  | .getN _ | .lengthN _ | .createO _ | .compressO _ | .getO _ | .lengthO _ => false

/-- The causes of InvalidArgument, all of them (R191). -/
def invalidCause (s : State) : Instr → Prop
  | .bitsNeeded v => 2 ^ s.params.width ≤ v
  | .compressX n | .compressN n | .compressO n =>
    s.params.nmax < n ∨ ∃ j, j < n ∧ 2 ^ s.params.width ≤ (s.readSrc j).toNat
  | .decompressX dlen => dlen ≠ s.unitX.n.toNat
  | .decompressN dlen => dlen ≠ s.unitN.n.toNat
  | .decompressO dlen => dlen ≠ s.unitO.n.toNat
  | .maskLow _ | .createX _ | .createN _ | .createO _ | .getX _ | .getN _ | .getO _ | .lengthX _ | .lengthN _
  | .lengthO _ => False

/-- The one cause of IndexOutOfBounds (R192). -/
def indexCause (s : State) : Instr → Prop
  | .getX i => i < 0 ∨ (s.unitX.n.toNat : Int) ≤ i
  | .getN i => i < 0 ∨ (s.unitN.n.toNat : Int) ≤ i
  | .getO i => i < 0 ∨ (s.unitO.n.toNat : Int) ≤ i
  | .bitsNeeded _ | .maskLow _ | .createX _ | .createN _ | .createO _ | .compressX _ | .compressN _ | .compressO _
  | .decompressX _ | .decompressN _ | .decompressO _ | .lengthX _ | .lengthN _ | .lengthO _ => False

end Sys2Proof.Machine
end

