-- ==== Sys2Proof/Certificates/Slice0/Obligations.lean ====
section
/-! DEFINITION. The statements for the provers. A next state is written as the state before with the fields the
command writes, so each statement of a result is also its frame: every other field is unchanged. -/

open Sys2Proof Sys2Proof.Machine

/-! ### Encoding and the step -/

/-- R77, R78: a few rows of the opcode map, each CMD word written out, for every ARG. -/
def Obligations.OpcodeMapRowsDecode : Prop :=
  ∀ arg : Word,
    decode 0x00000000 arg = .ok (.bitsNeeded arg.toNat) ∧ decode 0x00000001 arg = .ok (.maskLow arg.toNat) ∧
    decode 0x00000010 arg = .ok (.createX arg) ∧ decode 0x00000011 arg = .ok (.compressX arg.toNat) ∧
    decode 0x00000022 arg = .ok (.getN arg.toInt) ∧ decode 0x00000023 arg = .ok (.decompressN arg.toNat) ∧
    decode 0x00000032 arg = .ok (.getO arg.toInt) ∧ decode 0x00000034 arg = .ok (.lengthO arg)

/-- R70 to R74, R78: decoding the words of any well-formed command gives it back. -/
def Obligations.DecodeOfEncodeIsIdentity : Prop :=
  ∀ i : Instr, i.wellFormed = true → decode (encode i).1 (encode i).2 = .ok i

/-- R77: whatever decodes is well formed, and encoding it gives both words back: no two pairs of words decode to one
command, and no bit of CMD or ARG is dropped. -/
def Obligations.EncodeOfDecodeIsIdentity : Prop :=
  ∀ (cmd arg : Word) (i : Instr), decode cmd arg = .ok i → encode i = (cmd, arg) ∧ i.wellFormed = true

/-- R10: when the host's next move issues words that decode to a command, the step is that command's meaning on the
state with the move taken. -/
def Obligations.StepRunsDecodedCommand : Prop :=
  ∀ (s : State) (cmd arg : Word) (rest : List HostMove) (i : Instr), s.host = .issue cmd arg :: rest →
    decode cmd arg = .ok i → step s = exec i { s with host := rest }

/-- R204, R50, R52, R210, R211 and logs 4 and 23 (the host's moves, a power-on reset among them, are the model's
choice): an idle step changes nothing; a host write changes that one word of its space and nothing of the block; a
power-on reset puts all three units in the state they hold at State.reset, leaves no response, and touches nothing
else. -/
def Obligations.StepTakesHostMoves : Prop :=
  ∀ s : State,
    (s.host = [] → step s = .next s) ∧
    (∀ j v rest, s.host = .writeSrc j v :: rest → ∃ m : Memory,
      step s = .next { s with src := m, host := rest } ∧ m.read j = some v ∧
        ∀ l, l ≠ j → m.read l = s.src.read l) ∧
    (∀ j v rest, s.host = .writeDst j v :: rest → ∃ m : Memory,
      step s = .next { s with dst := m, host := rest } ∧ m.read j = some v ∧
        ∀ l, l ≠ j → m.read l = s.dst.read l) ∧
    (∀ rest, s.host = .powerOn :: rest → step s = .next { s with
      unitX := State.reset.unitX
      unitN := State.reset.unitN
      unitO := State.reset.unitO
      response := none
      host := rest })

/-- R82 and log 4 (the host's list is the model's choice): the moves of an assembled line put its values in SRC from index 0 on and then run its command. -/
def Obligations.AssembledLineRuns : Prop :=
  ∀ (s : State) (l : AsmLine) (rest : List HostMove), l.instr.wellFormed = true →
    ∃ m : Memory,
      (∀ j, j < l.values.length → m.read j = l.values[j]?) ∧
      (∀ j, l.values.length ≤ j → m.read j = s.src.read j) ∧
      core.run (l.values.length + 1) { s with host := l.moves ++ rest } =
        exec l.instr { s with src := m, host := rest }

/-- R79: a word outside the opcode map is answered with STATUS 3 and RESULT 0, and nothing else changes; the words
outside are exactly those with a bit of 31:6 set or a reserved `op`, and there are 17 inside. That a step takes the
word from the host's list is the model's choice (log 4); STATUS 3 and RESULT 0 are the spec's decisions (log 12). -/
def Obligations.IllegalWordsAnswered : Prop :=
  commandWords.Nodup ∧ commandWords.length = 17 ∧ Status.code .illegalCommand = 3 ∧
  (∀ cmd : Word, cmd ∉ commandWords ↔
    (cmd.toNat / 64 ≠ 0 ∨ (cmd.toNat / 16 = 0 ∧ 2 ≤ cmd.toNat % 16) ∨ 5 ≤ cmd.toNat % 16)) ∧
  (∀ (s : State) (cmd arg : Word) (rest : List HostMove), s.host = .issue cmd arg :: rest → cmd ∉ commandWords →
    step s = .next { s with host := rest, response := some { status := .illegalCommand, result := 0 } }) ∧
  (∀ cmd arg : Word, cmd ∈ commandWords → ∃ i, decode cmd arg = .ok i)

/-! ### Unit U -/

/-- R90: `bitsNeeded` is 0 at 0, `1 + floor(log2 v)` above, and the least `b` with `v < 2^b`; its values at powers of
two; at most 32 for a 32-bit argument, at most 31 for a count. -/
def Obligations.BitsNeededIsLeastWidth : Prop :=
  bitsNeeded 0 = 0 ∧ (∀ v, 1 ≤ v → bitsNeeded v = 1 + Nat.log2 v) ∧
  (∀ v, v < 2 ^ bitsNeeded v ∧ ∀ b, v < 2 ^ b → bitsNeeded v ≤ b) ∧
  (∀ m, bitsNeeded (2 ^ m - 1) = m ∧ bitsNeeded (2 ^ m) = m + 1) ∧
  (∀ v, v < 2 ^ 32 → bitsNeeded v ≤ 32) ∧ (∀ v, v < 2 ^ 31 - 1 → bitsNeeded v ≤ 31)

/-- R92: the low `k` bits set and no others; every bit from 32 on. -/
def Obligations.MaskLowSetsLowBits : Prop :=
  (∀ k, k ≤ 31 → (maskLow k).toNat = 2 ^ k - 1) ∧ (∀ k, 32 ≤ k → (maskLow k).toNat = 2 ^ 32 - 1) ∧
  ∀ k b, b < 32 → (maskLow k).getLsbD b = decide (b < k)

/-- R96, R97: the laws of the bit utilities. -/
def Obligations.BitUtilityLaws : Prop :=
  (∀ v, v < 2 ^ bitsNeeded v) ∧ (∀ v, 1 ≤ v → 2 ^ (bitsNeeded v - 1) ≤ v) ∧
  (∀ u v, u ≤ v → bitsNeeded u ≤ bitsNeeded v) ∧
  (∀ vs : List Nat, bitsNeeded (maxOf vs) = maxOf (vs.map bitsNeeded)) ∧
  (∀ (v : Word) (k : Nat), bitsNeeded v.toNat ≤ k → v &&& maskLow k = v) ∧
  (∀ (v : Word) (k : Nat), k < bitsNeeded v.toNat → v &&& maskLow k ≠ v) ∧
  (∀ v k : Nat, v ≤ 2 ^ k - 1 ↔ bitsNeeded v ≤ k) ∧ (∀ v : Nat, v ≤ 2 ^ 0 - 1 ↔ v = 0)

/-- R94: BITSNEEDED, from its words to its response, in the domain and outside it. -/
def Obligations.BitsNeededCommand : Prop :=
  (∀ arg : Word, decode 0x00000000 arg = .ok (.bitsNeeded arg.toNat)) ∧
  (∀ (s : State) (v : Nat), v < 2 ^ s.params.width → exec (.bitsNeeded v) s =
    .next { s with response := some { status := .ok, result := BitVec.ofNat 32 (bitsNeeded v) } }) ∧
  (∀ (s : State) (v : Nat), 2 ^ s.params.width ≤ v → exec (.bitsNeeded v) s =
    .next { s with response := some { status := .invalidArgument, result := 0 } })

/-- R95: MASKLOW, from its words to its response, for every width. -/
def Obligations.MaskLowCommand : Prop :=
  (∀ arg : Word, decode 0x00000001 arg = .ok (.maskLow arg.toNat)) ∧
  (∀ (s : State) (k : Nat), k ≤ 31 → exec (.maskLow k) s =
    .next { s with response := some { status := .ok, result := BitVec.ofNat 32 (2 ^ k - 1) } }) ∧
  (∀ (s : State) (k : Nat), 32 ≤ k → exec (.maskLow k) s =
    .next { s with response := some { status := .ok, result := 0xFFFFFFFF } })

/-! ### Field access and the flag codec -/

/-- R110: a field written over zero bits reads back, and every bit outside it is unchanged. -/
def Obligations.FieldReadAfterWrite : Prop :=
  ∀ (B : List Word) (p w v : Nat), w ≤ 33 → p + w ≤ 32 * B.length →
    ((∀ q, p ≤ q → q < p + w → bufBit B q = false) → readField (writeField B p w v) p w = some (v % 2 ^ w)) ∧
    (∀ q, q < p ∨ p + w ≤ q → bufBit (writeField B p w v) q = bufBit B q) ∧
    (writeField B p w v).length = B.length

/-- R111: fields written once each to a zeroed buffer, in any order, all read back, the trailing bits are zero, and
the order does not change the buffer. -/
def Obligations.FieldsDoNotInterfere : Prop :=
  ∀ (n w len : Nat) (v : Nat → Nat) (order : List Nat), w ≤ 33 → n * w ≤ 32 * len → order.Perm (List.range n) →
    let B := order.foldl (fun B i => writeField B (i * w) w (v i)) (zeroBuffer len)
    (∀ i j q, i ≠ j → i * w ≤ q → q < i * w + w → ¬ (j * w ≤ q ∧ q < j * w + w)) ∧
    (∀ i, i < n → readField B (i * w) w = some (v i % 2 ^ w)) ∧ (∀ q, n * w ≤ q → bufBit B q = false) ∧
    B = (List.range n).foldl (fun B i => writeField B (i * w) w (v i)) (zeroBuffer len)

/-- R108: a field lies in at most two consecutive words; one that ends at the top bit of a word does not touch the
next; the split leaves between 1 and 32 bits for the second word. -/
def Obligations.FieldLiesInTwoWords : Prop :=
  ∀ (B : List Word) (p w v : Nat), w ≤ 33 →
    p % 32 + w ≤ 64 ∧
    (∀ j, j ≠ p / 32 → j ≠ p / 32 + 1 → (writeField B p w v)[j]? = B[j]?) ∧
    (p % 32 + w ≤ 32 → ∀ j, j ≠ p / 32 → (writeField B p w v)[j]? = B[j]?) ∧
    (32 < p % 32 + w → 1 ≤ w - (32 - p % 32) ∧ w - (32 - p % 32) ≤ 32)

/-- R150, R151: the flag is bit 0 and the content the bits above; decoding undoes encoding; the field fits when the
content does. -/
def Obligations.FlagCodecRoundTrip : Prop :=
  ∀ flag content : Nat, flag < 2 →
    encField flag content = 2 * content + flag ∧ decField (encField flag content) = (flag, content) ∧
    ∀ w, 1 ≤ w → content < 2 ^ (w - 1) → encField flag content < 2 ^ w

/-! ### CREATE and LENGTH -/

/-- R120, R135, R155: CREATE puts its unit in the reset state and touches nothing else. -/
def Obligations.CreateResetsItsUnit : Prop :=
  (∀ arg : Word, decode 0x00000010 arg = .ok (.createX arg) ∧ decode 0x00000020 arg = .ok (.createN arg) ∧
    decode 0x00000030 arg = .ok (.createO arg)) ∧
  ∀ (s : State) (arg : Word),
    exec (.createX arg) s = .next { s with
      unitX := { n := 0, k := 0, buf := [] }
      response := some { status := .ok, result := 0 } } ∧
    exec (.createN arg) s = .next { s with
      unitN := { n := 0, k := 0, fieldsPerWord := 1, buf := [] }
      response := some { status := .ok, result := 0 } } ∧
    exec (.createO arg) s = .next { s with
      unitO := { n := 0, petitK := 0, bitsChamp := 1, overflowCount := 0, ovt := [], buf := [] }
      response := some { status := .ok, result := 0 } }

/-- R124, R140, R161: LENGTH returns `n`, which is 0 in the reset state, after CREATE and after an empty COMPRESS, and
which a failed COMPRESS leaves as it was. -/
def Obligations.LengthReturnsCount : Prop :=
  (∀ arg : Word, decode 0x00000014 arg = .ok (.lengthX arg) ∧ decode 0x00000024 arg = .ok (.lengthN arg) ∧
    decode 0x00000034 arg = .ok (.lengthO arg)) ∧
  (∀ (s : State) (arg : Word),
    exec (.lengthX arg) s = .next { s with response := some { status := .ok, result := s.unitX.n } } ∧
    exec (.lengthN arg) s = .next { s with response := some { status := .ok, result := s.unitN.n } } ∧
    exec (.lengthO arg) s = .next { s with response := some { status := .ok, result := s.unitO.n } }) ∧
  (State.reset.unitX.n = 0 ∧ State.reset.unitN.n = 0 ∧ State.reset.unitO.n = 0) ∧
  (∀ (s : State) (arg : Word),
    (∃ t, exec (.createX arg) s = .next t ∧ t.unitX.n = 0) ∧ (∃ t, exec (.createN arg) s = .next t ∧ t.unitN.n = 0) ∧
    (∃ t, exec (.createO arg) s = .next t ∧ t.unitO.n = 0) ∧ (∃ t, exec (.compressX 0) s = .next t ∧ t.unitX.n = 0) ∧
    (∃ t, exec (.compressN 0) s = .next t ∧ t.unitN.n = 0) ∧ ∃ t, exec (.compressO 0) s = .next t ∧ t.unitO.n = 0) ∧
  (∀ (s : State) (n : Nat), s.params.nmax < n ∨ (∃ j, j < n ∧ 2 ^ s.params.width ≤ (s.readSrc j).toNat) →
    (∃ t, exec (.compressX n) s = .next t ∧ t.unitX.n = s.unitX.n) ∧
    (∃ t, exec (.compressN n) s = .next t ∧ t.unitN.n = s.unitN.n) ∧
    ∃ t, exec (.compressO n) s = .next t ∧ t.unitO.n = s.unitO.n)

/-! ### COMPRESS -/

/-- R121: COMPRESS.X of an accepted sequence writes `n`, `k`, and a buffer of the length the rule gives whose bits
are the fields end to end and zero after them; any other sequence is rejected with nothing written. -/
def Obligations.CompressXPacksEndToEnd : Prop :=
  (∀ arg : Word, decode 0x00000011 arg = .ok (.compressX arg.toNat)) ∧
  (∀ (s : State) (n : Nat), sourceAccepted s n → ∃ u : XUnit,
    exec (.compressX n) s =
      .next { s with unitX := u, response := some { status := .ok, result := 0 } } ∧
    u.n.toNat = n ∧ u.k.toNat = min (bitsNeeded (maxOf ((s.source n).map BitVec.toNat))) 32 ∧
    u.buf.length = ceilDiv (n * u.k.toNat) 32 ∧
    (∀ i, i < n → (s.readSrc i).toNat < 2 ^ u.k.toNat ∧
      ∀ b, b < u.k.toNat → bufBit u.buf (i * u.k.toNat + b) = (s.readSrc i).getLsbD b) ∧
    (∀ q, n * u.k.toNat ≤ q → bufBit u.buf q = false) ∧
    (n = 0 → u = XUnit.reset)) ∧
  (∀ (s : State) (n : Nat), ¬ sourceAccepted s n → exec (.compressX n) s =
    .next { s with response := some { status := .invalidArgument, result := 0 } })

/-- R136, R137: COMPRESS.N of an accepted sequence writes `n`, `k`, `fieldsPerWord` (1 for `k = 0`, else
`floor(32/k)`) and a buffer of `ceil(n / fieldsPerWord)` words whose slots hold the values, every other bit zero; any
other sequence is rejected with nothing written. -/
def Obligations.CompressNPacksInWords : Prop :=
  (∀ arg : Word, decode 0x00000021 arg = .ok (.compressN arg.toNat)) ∧
  (∀ (s : State) (n : Nat), sourceAccepted s n → ∃ u : NUnit,
    exec (.compressN n) s =
      .next { s with unitN := u, response := some { status := .ok, result := 0 } } ∧
    u.n.toNat = n ∧ u.k.toNat = min (bitsNeeded (maxOf ((s.source n).map BitVec.toNat))) 32 ∧
    (u.k.toNat = 0 → u.fieldsPerWord.toNat = 1) ∧ (1 ≤ u.k.toNat → u.fieldsPerWord.toNat = 32 / u.k.toNat) ∧
    u.buf.length = ceilDiv n u.fieldsPerWord.toNat ∧
    (∀ i, i < n → (s.readSrc i).toNat < 2 ^ u.k.toNat ∧ ∀ b, b < u.k.toNat →
      bufBit u.buf (32 * (i / u.fieldsPerWord.toNat) + (i % u.fieldsPerWord.toNat * u.k.toNat + b)) =
        (s.readSrc i).getLsbD b) ∧
    (∀ j b, b < 32 → u.fieldsPerWord.toNat * u.k.toNat ≤ b ∨ n ≤ j * u.fieldsPerWord.toNat + b / u.k.toNat →
      bufBit u.buf (32 * j + b) = false) ∧
    (n = 0 → u = NUnit.reset)) ∧
  (∀ (s : State) (n : Nat), ¬ sourceAccepted s n → exec (.compressN n) s =
    .next { s with response := some { status := .invalidArgument, result := 0 } })

/-- R156, R157: COMPRESS.O of an accepted sequence writes the parameters of the search's winner, the table of the
overflowing values in input order, and the fields: flag 1 and the rank where the value needs more than `petitK`
bits, flag 0 and the value elsewhere; any other sequence is rejected with nothing written. -/
def Obligations.CompressOBuildsTableAndFields : Prop :=
  (∀ arg : Word, decode 0x00000031 arg = .ok (.compressO arg.toNat)) ∧
  (∀ (s : State) (n : Nat), sourceAccepted s n → ∃ u : OUnit,
    exec (.compressO n) s =
      .next { s with unitO := u, response := some { status := .ok, result := 0 } } ∧
    u.n.toNat = n ∧ u.petitK.toNat = bestWidth (widthsOf (s.source n)) ∧
    u.bitsChamp.toNat = fieldBits (widthsOf (s.source n)) u.petitK.toNat ∧
    u.overflowCount.toNat = overflowCountAt (widthsOf (s.source n)) u.petitK.toNat ∧
    u.ovt = (s.source n).filter (fun v => decide (u.petitK.toNat < bitsNeeded v.toNat)) ∧
    u.buf.length = ceilDiv (n * u.bitsChamp.toNat) 32 ∧
    (∀ i, i < n → u.petitK.toNat < bitsNeeded (s.readSrc i).toNat →
      readField u.buf (i * u.bitsChamp.toNat) u.bitsChamp.toNat = some (encField 1
        (((s.source n).take i).countP (fun v => decide (u.petitK.toNat < bitsNeeded v.toNat))))) ∧
    (∀ i, i < n → bitsNeeded (s.readSrc i).toNat ≤ u.petitK.toNat →
      readField u.buf (i * u.bitsChamp.toNat) u.bitsChamp.toNat = some (encField 0 (s.readSrc i).toNat)) ∧
    (∀ q, n * u.bitsChamp.toNat ≤ q → bufBit u.buf q = false) ∧
    (n = 0 → u = OUnit.reset)) ∧
  (∀ (s : State) (n : Nat), ¬ sourceAccepted s n → exec (.compressO n) s =
    .next { s with response := some { status := .invalidArgument, result := 0 } })

/-- R157, R158: after a successful COMPRESS.O, field `i` has flag 1 exactly when the value needs more than `petitK`
bits, `overflowCount` is the number of such `i`, and the table lists their values in ascending order of `i`. -/
def Obligations.OverflowFlagTellsTruth : Prop :=
  ∀ (s t : State) (n : Nat), exec (.compressO n) s = .next t →
    t.response = some { status := .ok, result := 0 } →
    (∀ i, i < n → ∃ f, t.unitO.field i = some f ∧
      ((decField f).1 = 1 ↔ t.unitO.petitK.toNat < bitsNeeded (s.readSrc i).toNat)) ∧
    t.unitO.overflowCount.toNat =
      (List.range n).countP (fun i => decide (t.unitO.petitK.toNat < bitsNeeded (s.readSrc i).toNat)) ∧
    t.unitO.ovt = ((List.range n).filter
      (fun i => decide (t.unitO.petitK.toNat < bitsNeeded (s.readSrc i).toNat))).map s.readSrc

/-- R53, R214: what a successful COMPRESS leaves does not depend on what its unit held before. -/
def Obligations.CompressOverwritesItsUnit : Prop :=
  ∀ (s t : State) (n : Nat), t.response = some { status := .ok, result := 0 } →
    (exec (.compressX n) s = .next t → ∀ u : XUnit, exec (.compressX n) { s with unitX := u } = .next t) ∧
    (exec (.compressN n) s = .next t → ∀ u : NUnit, exec (.compressN n) { s with unitN := u } = .next t) ∧
    (exec (.compressO n) s = .next t → ∀ u : OUnit, exec (.compressO n) { s with unitO := u } = .next t)

/-- R51: COMPRESS reads `SRC[0 .. n-1]` and nothing else of SRC, and none of it when `n > NMAX`. -/
def Obligations.CompressReadsOnlyItsSource : Prop :=
  ∀ (s t : State) (m : Memory) (n : Nat),
    (n ≤ s.params.nmax → ∀ j, j < n → ({ s with src := m } : State).readSrc j = s.readSrc j) →
    (exec (.compressX n) s = .next t → exec (.compressX n) { s with src := m } = .next { t with src := m }) ∧
    (exec (.compressN n) s = .next t → exec (.compressN n) { s with src := m } = .next { t with src := m }) ∧
    (exec (.compressO n) s = .next t → exec (.compressO n) { s with src := m } = .next { t with src := m })

/-- R142: units X and N derive the same `k` from the same sequence; where `k >= 1` divides 32 their buffers are equal
word for word; for `k = 0` unit X holds no word and unit N holds `n` zero words. -/
def Obligations.CrossAndNoCrossAgree : Prop :=
  ∀ (s tx tn : State) (n : Nat), sourceAccepted s n → exec (.compressX n) s = .next tx →
    exec (.compressN n) s = .next tn →
    tx.unitX.k = tn.unitN.k ∧
    (1 ≤ tx.unitX.k.toNat → tx.unitX.k.toNat ∣ 32 → tx.unitX.buf = tn.unitN.buf) ∧
    (tx.unitX.k.toNat = 0 → tx.unitX.buf = [] ∧ tn.unitN.buf = List.replicate n 0)

/-- R126, R107: an all-zero sequence gives `k = 0` in units X and N and every GET returns 0; the one value
`2^VBITS - 1` gives `k = VBITS` and a buffer of that word; with VBITS = 31 the word `0xFFFFFFFF` is rejected. -/
def Obligations.BoundaryWidths : Prop :=
  (∀ (s : State) (n : Nat), n ≤ s.params.nmax → (∀ j, j < n → s.readSrc j = 0) →
    (∃ t, exec (.compressX n) s = .next t ∧ t.unitX.k = 0 ∧ t.unitX.buf = [] ∧ ∀ i : Nat, i < n →
      exec (.getX i) t = .next { t with response := some { status := .ok, result := 0 } }) ∧
    (∃ t, exec (.compressN n) s = .next t ∧ t.unitN.k = 0 ∧ ∀ i : Nat, i < n →
      exec (.getN i) t = .next { t with response := some { status := .ok, result := 0 } })) ∧
  (∀ s : State, (s.readSrc 0).toNat = 2 ^ s.params.width - 1 →
    (∃ t, exec (.compressX 1) s = .next t ∧ t.unitX.k.toNat = s.params.width ∧ t.unitX.buf = [s.readSrc 0]) ∧
    ∃ t, exec (.compressN 1) s = .next t ∧ t.unitN.k.toNat = s.params.width ∧ t.unitN.buf = [s.readSrc 0]) ∧
  (∀ s : State, s.params.vbits = .b31 → s.readSrc 0 = 0xFFFFFFFF → exec (.compressX 1) s =
    .next { s with response := some { status := .invalidArgument, result := 0 } })

/-! ### The width search -/

/-- R152, R153: the search's quantities; it selects the least candidate in `0 .. max(1, bitsMax)` whose total is the
minimum, and COMPRESS.O takes `petitK`, `bitsChamp` and `overflowCount` from it. -/
def Obligations.SearchPicksLeastOptimum : Prop :=
  maxOf [] = 0 ∧
  (∀ bs : List Nat,
    (∀ k, overflowCountAt bs k = (bs.filter (fun b => decide (k < b))).length ∧
      fieldBits bs k = 1 + max k (if 0 < overflowCountAt bs k then bitsNeeded (overflowCountAt bs k - 1) else 0) ∧
      totalBits bs k = bs.length * fieldBits bs k + overflowCountAt bs k * 32) ∧
    bestWidth bs ≤ max 1 (maxOf bs) ∧
    (∀ k, k ≤ max 1 (maxOf bs) → totalBits bs (bestWidth bs) ≤ totalBits bs k) ∧
    ∀ k, k < bestWidth bs → totalBits bs (bestWidth bs) < totalBits bs k) ∧
  ∀ vs : List Word, vs.length ≤ 2147483647 →
    let bs := vs.map (fun v => bitsNeeded v.toNat)
    (packO vs).petitK.toNat = bestWidth bs ∧ (packO vs).bitsChamp.toNat = fieldBits bs (bestWidth bs) ∧
      (packO vs).overflowCount.toNat = overflowCountAt bs (bestWidth bs)

/-- R154: the facts about the search, for the widths of any source sequence of at most `2^31 - 1` words. -/
def Obligations.SearchFacts : Prop :=
  (∀ (p : Params) (vs : List Word), (∀ v ∈ vs, v.toNat < 2 ^ p.width) → vs.length ≤ 2147483647 →
    bestWidth (widthsOf vs) ≤ max 1 (maxOf (widthsOf vs)) ∧ max 1 (maxOf (widthsOf vs)) ≤ p.width ∧
    1 ≤ fieldBits (widthsOf vs) (bestWidth (widthsOf vs)) ∧
    fieldBits (widthsOf vs) (bestWidth (widthsOf vs)) ≤ p.width + 1) ∧
  (∀ (bs : List Nat) (j k : Nat), j ≤ k → overflowCountAt bs k ≤ overflowCountAt bs j) ∧
  (∀ (bs : List Nat) (k : Nat), maxOf bs ≤ k → overflowCountAt bs k = 0) ∧
  (∀ bs : List Nat, 1 ≤ maxOf bs → totalBits bs (maxOf bs) = bs.length * (1 + maxOf bs)) ∧
  (∀ bs : List Nat, maxOf bs = 0 → totalBits bs 0 = bs.length ∧ totalBits bs 1 = 2 * bs.length ∧
    bestWidth bs = 0 ∧ fieldBits bs 0 = 1 ∧ overflowCountAt bs 0 = 0) ∧
  (∀ (bs : List Nat) (k : Nat), indexBits (overflowCountAt bs k) ≤ bitsNeeded (bs.length - 1)) ∧
  (∀ bs : List Nat, bs.length ≤ 2147483647 → bitsNeeded (bs.length - 1) ≤ 31) ∧
  (totalBits (widthsOf [0xFFFFFFFF, 0x80000000]) 0 = 68 ∧ totalBits (widthsOf [0xFFFFFFFF, 0x80000000]) 32 = 66 ∧
    bestWidth (widthsOf [0xFFFFFFFF, 0x80000000]) = 32 ∧ fieldBits (widthsOf [0xFFFFFFFF, 0x80000000]) 32 = 33) ∧
  (∀ (bs : List Nat) (k : Nat), k ≤ max 1 (maxOf bs) → totalBits bs (bestWidth bs) ≤ totalBits bs k) ∧
  (∀ (bs : List Nat) (k : Nat), (∀ b ∈ bs, b ≤ 32) → overflowCountAt bs k =
    (((List.range 33).filter (fun j => decide (k < j))).map (fun j => bs.count j)).sum)

/-! ### GET -/

/-- R122: GET.X inside `[0, n)` returns the field; outside, IndexOutOfBounds. -/
def Obligations.GetXReturnsField : Prop :=
  (∀ arg : Word, decode 0x00000012 arg = .ok (.getX arg.toInt)) ∧
  (∀ (s : State) (i : Int), i < 0 ∨ (s.unitX.n.toNat : Int) ≤ i → exec (.getX i) s =
    .next { s with response := some { status := .indexOutOfBounds, result := 0 } }) ∧
  (∀ (s : State) (i : Nat), s.unitX.Inv s.params → i < s.unitX.n.toNat → ∃ v,
    readField s.unitX.buf (i * s.unitX.k.toNat) s.unitX.k.toNat = some v ∧ v < 2 ^ s.unitX.k.toNat ∧
    v < 2 ^ 32 ∧ (s.unitX.k.toNat = 0 → v = 0) ∧
    exec (.getX i) s = .next { s with response := some { status := .ok, result := BitVec.ofNat 32 v } })

/-- R138: GET.N inside `[0, n)` returns the masked slot of one word; outside, IndexOutOfBounds. -/
def Obligations.GetNReturnsSlot : Prop :=
  (∀ arg : Word, decode 0x00000022 arg = .ok (.getN arg.toInt)) ∧
  (∀ (s : State) (i : Int), i < 0 ∨ (s.unitN.n.toNat : Int) ≤ i → exec (.getN i) s =
    .next { s with response := some { status := .indexOutOfBounds, result := 0 } }) ∧
  (∀ (s : State) (i : Nat), s.unitN.Inv s.params → i < s.unitN.n.toNat → ∃ x : Word,
    s.unitN.buf[i / s.unitN.fieldsPerWord.toNat]? = some x ∧
    exec (.getN i) s = .next { s with response := some { status := .ok, result :=
      (x >>> (i % s.unitN.fieldsPerWord.toNat * s.unitN.k.toNat)) &&& maskLow s.unitN.k.toNat } })

/-- R159: GET.O inside `[0, n)` returns the content of an unflagged field, and the table entry a flagged field refers
to; outside, IndexOutOfBounds. -/
def Obligations.GetOReturnsContentOrEntry : Prop :=
  (∀ arg : Word, decode 0x00000032 arg = .ok (.getO arg.toInt)) ∧
  (∀ (s : State) (i : Int), i < 0 ∨ (s.unitO.n.toNat : Int) ≤ i → exec (.getO i) s =
    .next { s with response := some { status := .indexOutOfBounds, result := 0 } }) ∧
  (∀ (s : State) (i : Nat), s.unitO.Inv s.params → i < s.unitO.n.toNat → ∃ f w,
    readField s.unitO.buf (i * s.unitO.bitsChamp.toNat) s.unitO.bitsChamp.toNat = some f ∧
    ((decField f).1 = 0 → w.toNat = (decField f).2) ∧
    ((decField f).1 ≠ 0 → (decField f).2 < s.unitO.overflowCount.toNat ∧
      s.unitO.ovt[(decField f).2]? = some w) ∧
    exec (.getO i) s = .next { s with response := some { status := .ok, result := w } })

/-- U3 (log 8): a flagged field whose content is no index of the table still answers STATUS OK, with a value of which
nothing is claimed, and changes nothing else. Only a state that breaks R27 has such a field. -/
def Obligations.StrayFlagStillAnswersOk : Prop :=
  ∀ (s : State) (i f : Nat), i < s.unitO.n.toNat → s.unitO.field i = some f → (decField f).1 = 1 →
    s.unitO.ovt.length ≤ (decField f).2 →
    ∃ v : Word, exec (.getO i) s = .next { s with response := some { status := .ok, result := v } }

/-- S3, R21: GET is idempotent: repeating it gives the same response and changes nothing more. -/
def Obligations.GetIsIdempotent : Prop :=
  ∀ (s t : State) (i : Int),
    (exec (.getX i) s = .next t → exec (.getX i) t = .next t) ∧
    (exec (.getN i) s = .next t → exec (.getN i) t = .next t) ∧
    (exec (.getO i) s = .next t → exec (.getO i) t = .next t)

/-! ### DECOMPRESS -/

/-- R123, R52: DECOMPRESS.X with `dlen = n` writes `DST[i] = get(i)` for every `i < n` and nothing else; with any
other `dlen`, InvalidArgument and no word of DST. -/
def Obligations.DecompressXFillsDestination : Prop :=
  (∀ arg : Word, decode 0x00000013 arg = .ok (.decompressX arg.toNat)) ∧
  (∀ (s : State) (dlen : Nat), dlen ≠ s.unitX.n.toNat → exec (.decompressX dlen) s =
    .next { s with response := some { status := .invalidArgument, result := 0 } }) ∧
  (∀ s : State, s.unitX.Inv s.params → ∃ m : Memory,
    exec (.decompressX s.unitX.n.toNat) s =
      .next { s with dst := m, response := some { status := .ok, result := 0 } } ∧
    (∀ i, i < s.unitX.n.toNat → ∃ v,
      readField s.unitX.buf (i * s.unitX.k.toNat) s.unitX.k.toNat = some v ∧
      m.read i = some (BitVec.ofNat 32 v) ∧
      exec (.getX i) s = .next { s with response := some { status := .ok, result := BitVec.ofNat 32 v } }) ∧
    ∀ j, s.unitX.n.toNat ≤ j → m.read j = s.dst.read j)

/-- R139, R52: DECOMPRESS.N, the same through unit N's own access. -/
def Obligations.DecompressNFillsDestination : Prop :=
  (∀ arg : Word, decode 0x00000023 arg = .ok (.decompressN arg.toNat)) ∧
  (∀ (s : State) (dlen : Nat), dlen ≠ s.unitN.n.toNat → exec (.decompressN dlen) s =
    .next { s with response := some { status := .invalidArgument, result := 0 } }) ∧
  (∀ s : State, s.unitN.Inv s.params → ∃ m : Memory,
    exec (.decompressN s.unitN.n.toNat) s =
      .next { s with dst := m, response := some { status := .ok, result := 0 } } ∧
    (∀ i, i < s.unitN.n.toNat → ∃ x v : Word,
      s.unitN.buf[i / s.unitN.fieldsPerWord.toNat]? = some x ∧
      v = (x >>> (i % s.unitN.fieldsPerWord.toNat * s.unitN.k.toNat)) &&& maskLow s.unitN.k.toNat ∧
      m.read i = some v ∧
      exec (.getN i) s = .next { s with response := some { status := .ok, result := v } }) ∧
    ∀ j, s.unitN.n.toNat ≤ j → m.read j = s.dst.read j)

/-- R160, R52: DECOMPRESS.O, the same through the flag and the table. -/
def Obligations.DecompressOFillsDestination : Prop :=
  (∀ arg : Word, decode 0x00000033 arg = .ok (.decompressO arg.toNat)) ∧
  (∀ (s : State) (dlen : Nat), dlen ≠ s.unitO.n.toNat → exec (.decompressO dlen) s =
    .next { s with response := some { status := .invalidArgument, result := 0 } }) ∧
  (∀ s : State, s.unitO.Inv s.params → ∃ m : Memory,
    exec (.decompressO s.unitO.n.toNat) s =
      .next { s with dst := m, response := some { status := .ok, result := 0 } } ∧
    (∀ i, i < s.unitO.n.toNat → ∃ f w,
      readField s.unitO.buf (i * s.unitO.bitsChamp.toNat) s.unitO.bitsChamp.toNat = some f ∧
      ((decField f).1 = 0 → w.toNat = (decField f).2) ∧
      ((decField f).1 ≠ 0 → s.unitO.ovt[(decField f).2]? = some w) ∧
      m.read i = some w ∧
      exec (.getO i) s = .next { s with response := some { status := .ok, result := w } }) ∧
    ∀ j, s.unitO.n.toNat ≤ j → m.read j = s.dst.read j)

/-! ### Round trips -/

/-- R125: after a successful COMPRESS.X, in every later state whose unit X is the one it left, GET returns the source
values, DECOMPRESS fills DST with them, LENGTH returns `n`; the buffer is the densest layout. -/
def Obligations.CrossWordRoundTrip : Prop :=
  ∀ (s t u : State) (n : Nat), exec (.compressX n) s = .next t →
    t.response = some { status := .ok, result := 0 } → u.unitX = t.unitX →
    (∀ i : Nat, i < n →
      exec (.getX i) u = .next { u with response := some { status := .ok, result := s.readSrc i } }) ∧
    (∃ m : Memory, exec (.decompressX n) u =
        .next { u with dst := m, response := some { status := .ok, result := 0 } } ∧
      (∀ i, i < n → m.read i = some (s.readSrc i)) ∧ ∀ j, n ≤ j → m.read j = u.dst.read j) ∧
    (∀ arg : Word, exec (.lengthX arg) u =
      .next { u with response := some { status := .ok, result := BitVec.ofNat 32 n } }) ∧
    t.unitX.k.toNat = bitsNeeded (maxOf ((s.source n).map BitVec.toNat)) ∧
    t.unitX.buf.length = ceilDiv (n * t.unitX.k.toNat) 32

/-- R141: the same for unit N, whose slots lie below the unused top bits of each word. -/
def Obligations.NoCrossRoundTrip : Prop :=
  ∀ (s t u : State) (n : Nat), exec (.compressN n) s = .next t →
    t.response = some { status := .ok, result := 0 } → u.unitN = t.unitN →
    (∀ i : Nat, i < n →
      exec (.getN i) u = .next { u with response := some { status := .ok, result := s.readSrc i } }) ∧
    (∃ m : Memory, exec (.decompressN n) u =
        .next { u with dst := m, response := some { status := .ok, result := 0 } } ∧
      (∀ i, i < n → m.read i = some (s.readSrc i)) ∧ ∀ j, n ≤ j → m.read j = u.dst.read j) ∧
    (∀ arg : Word, exec (.lengthN arg) u =
      .next { u with response := some { status := .ok, result := BitVec.ofNat 32 n } }) ∧
    t.unitN.fieldsPerWord.toNat * t.unitN.k.toNat ≤ 32 ∧
    (∀ i, i < n → i % t.unitN.fieldsPerWord.toNat * t.unitN.k.toNat + t.unitN.k.toNat ≤
      t.unitN.fieldsPerWord.toNat * t.unitN.k.toNat) ∧
    ∀ slot slot' b, slot ≠ slot' → slot * t.unitN.k.toNat ≤ b → b < slot * t.unitN.k.toNat + t.unitN.k.toNat →
      ¬ (slot' * t.unitN.k.toNat ≤ b ∧ b < slot' * t.unitN.k.toNat + t.unitN.k.toNat)

/-- R162: the same for unit O. -/
def Obligations.OverflowRoundTrip : Prop :=
  ∀ (s t u : State) (n : Nat), exec (.compressO n) s = .next t →
    t.response = some { status := .ok, result := 0 } → u.unitO = t.unitO →
    (∀ i : Nat, i < n →
      exec (.getO i) u = .next { u with response := some { status := .ok, result := s.readSrc i } }) ∧
    (∃ m : Memory, exec (.decompressO n) u =
        .next { u with dst := m, response := some { status := .ok, result := 0 } } ∧
      (∀ i, i < n → m.read i = some (s.readSrc i)) ∧ ∀ j, n ≤ j → m.read j = u.dst.read j) ∧
    ∀ arg : Word, exec (.lengthO arg) u =
      .next { u with response := some { status := .ok, result := BitVec.ofNat 32 n } }

/-! ### The whole machine -/

/-- R33, R210, R211, R212: the reset state is the empty sequence in all three units, no response and no command;
CREATE gives the same unit state, and so does COMPRESS of the empty sequence, from every state. -/
def Obligations.ResetHoldsEmptySequence : Prop :=
  State.reset.unitX = { n := 0, k := 0, buf := [] } ∧
  State.reset.unitN = { n := 0, k := 0, fieldsPerWord := 1, buf := [] } ∧
  State.reset.unitO = { n := 0, petitK := 0, bitsChamp := 1, overflowCount := 0, ovt := [], buf := [] } ∧
  State.reset.response = none ∧ step State.reset = .next State.reset ∧
  (∀ (s : State) (arg : Word),
    exec (.createX arg) s = exec (.compressX 0) s ∧ exec (.createN arg) s = exec (.compressN 0) s ∧
    exec (.createO arg) s = exec (.compressO 0) s ∧
    exec (.createX arg) s = .next { s with
      unitX := State.reset.unitX, response := some { status := .ok, result := 0 } } ∧
    exec (.createN arg) s = .next { s with
      unitN := State.reset.unitN, response := some { status := .ok, result := 0 } } ∧
    exec (.createO arg) s = .next { s with
      unitO := State.reset.unitO, response := some { status := .ok, result := 0 } })

/-- R23, R25, R27: the invariants hold at reset. -/
def Obligations.ResetSatisfiesInvariant : Prop := State.reset.Inv

/-- R23, R25, R27: every step from a state that satisfies the invariants of the three units (and whose SRC and DST
are in canonical form) leaves one that does. -/
def Obligations.StepKeepsInvariant : Prop := ∀ s t : State, s.Inv → step s = .next t → t.Inv

/-- R59, R224: from a state that satisfies the invariants every step answers a next state: none stops, and none is
refused. In such a state every word an element access reads exists: every field of units X and O lies inside its
buffer and is read there, every slot of unit N is in a word of its buffer, and every flagged content of unit O is an
index of the table. -/
def Obligations.EveryStepAnswers : Prop :=
  ∀ s : State, s.Inv →
    (∃ t, step s = .next t) ∧
    (∀ i, i < s.unitX.n.toNat → i * s.unitX.k.toNat + s.unitX.k.toNat ≤ 32 * s.unitX.buf.length ∧
      ∃ f, readField s.unitX.buf (i * s.unitX.k.toNat) s.unitX.k.toNat = some f) ∧
    (∀ i, i < s.unitN.n.toNat →
      0 < s.unitN.fieldsPerWord.toNat ∧ i / s.unitN.fieldsPerWord.toNat < s.unitN.buf.length) ∧
    ∀ i, i < s.unitO.n.toNat →
      i * s.unitO.bitsChamp.toNat + s.unitO.bitsChamp.toNat ≤ 32 * s.unitO.buf.length ∧
      ∃ f, s.unitO.field i = some f ∧ ((decField f).1 = 1 → (decField f).2 < s.unitO.ovt.length)

/-- R21: no command but CREATE and COMPRESS writes a register or an internal space of any unit. -/
def Obligations.OnlyCreateAndCompressWriteUnits : Prop :=
  ∀ (i : Instr) (s t : State), writesUnit i = false → exec i s = .next t →
    t.unitX = s.unitX ∧ t.unitN = s.unitN ∧ t.unitO = s.unitO

/-- R182: a command leaves every unit but its own as it was, and its response and what it writes depend on no other
unit: two states that agree on its unit, SRC and the parameters get the same response, the same unit state and the
same words of DST wherever one of them changed. -/
def Obligations.UnitsAreIndependent : Prop :=
  ∀ (i : Instr) (s t : State), exec i s = .next t →
    (unitOf i ≠ .x → t.unitX = s.unitX) ∧ (unitOf i ≠ .n → t.unitN = s.unitN) ∧
    (unitOf i ≠ .o → t.unitO = s.unitO) ∧
    ∀ s' : State, s'.params = s.params → s'.src = s.src → (unitOf i = .x → s'.unitX = s.unitX) →
      (unitOf i = .n → s'.unitN = s.unitN) → (unitOf i = .o → s'.unitO = s.unitO) →
      ∃ t', exec i s' = .next t' ∧ t'.response = t.response ∧ (unitOf i = .x → t'.unitX = t.unitX) ∧
        (unitOf i = .n → t'.unitN = t.unitN) ∧ (unitOf i = .o → t'.unitO = t.unitO) ∧
        ∀ j, t.dst.read j ≠ s.dst.read j → t'.dst.read j = t.dst.read j

/-- R195: a command that answers an error changes nothing but the response, whose RESULT is 0. -/
def Obligations.ErrorsLeaveNoMark : Prop :=
  ∀ (i : Instr) (s t : State) (r : Response), exec i s = .next t → t.response = some r → r.status ≠ .ok →
    r.result = 0 ∧ t = { s with response := some r }

/-- R191: InvalidArgument (STATUS 1) is answered in exactly the listed cases. -/
def Obligations.InvalidArgumentCauses : Prop :=
  Status.code .invalidArgument = 1 ∧
  ∀ (i : Instr) (s : State), invalidCause s i ↔
    ∃ t r, exec i s = .next t ∧ t.response = some r ∧ r.status = .invalidArgument

/-- R192: IndexOutOfBounds (STATUS 2) is answered in exactly one case, and never by DECOMPRESS. -/
def Obligations.IndexOutOfBoundsCause : Prop :=
  Status.code .indexOutOfBounds = 2 ∧
  ∀ (i : Instr) (s : State), indexCause s i ↔
    ∃ t r, exec i s = .next t ∧ t.response = some r ∧ r.status = .indexOutOfBounds

/-- R202: a command that gives a next state answers with a status its row allows, and none answers IllegalCommand; in
a state with the invariants every command gives a next state, so it always answers there. -/
def Obligations.CommandsAnswerAllowedStatuses : Prop :=
  (∀ (i : Instr) (s t : State), i.wellFormed = true → exec i s = .next t →
    ∃ r, t.response = some r ∧ allowedStatus s.params i r.status ∧ r.status ≠ .illegalCommand) ∧
  ∀ (i : Instr) (s : State), s.Inv → ∃ t r, exec i s = .next t ∧ t.response = some r

/-- R30, R50, R52, log 3, log 4: no command writes the parameters, SRC or the host's moves, and none but DECOMPRESS
writes DST. -/
def Obligations.CommandsNeverWriteHostState : Prop :=
  ∀ (i : Instr) (s t : State), exec i s = .next t →
    t.params = s.params ∧ t.src = s.src ∧ t.host = s.host ∧ (writesDst i = false → t.dst = s.dst)
end

