-- ==== Sys2Proof/Laws/Ops.lean ====
section
/-! SUPPORT. What each shared operation can do, said once: the bit utilities, the value domain, the host-owned
spaces, and the four operations of the shared contract. -/

namespace Sys2Proof

/-! ### Arithmetic and the parameters -/

theorem ceilDiv_mul_ge (a b : Nat) (hb : 0 < b) : a ≤ b * ceilDiv a b := by
  unfold ceilDiv
  have h1 := Nat.div_add_mod (a + b - 1) b
  have h2 := Nat.mod_lt (a + b - 1) hb
  omega

theorem ceilDiv_mul_lt (a b : Nat) (hb : 0 < b) : b * ceilDiv a b < a + b := by
  unfold ceilDiv
  have := Nat.mul_div_le (a + b - 1) b
  omega

theorem Params.one_le_nmax (p : Params) : 1 ≤ p.nmax := by simp [Params.nmax]

theorem Params.nmax_le (p : Params) : p.nmax ≤ 2147483647 := by
  have := p.nmaxPred.isLt
  simp only [Params.nmax]; omega

theorem Params.width_cases (p : Params) : p.width = 31 ∨ p.width = 32 := by
  unfold Params.width
  cases p.vbits <;> simp [VBits.toNat]

end Sys2Proof

namespace Sys2Proof.Machine

/-! ### Bit utilities -/

@[simp] theorem bitsNeeded_zero : bitsNeeded 0 = 0 := rfl

/-- `bitsNeeded v` is the least width that holds `v` (R90, R97). -/
theorem bitsNeeded_le_iff (v b : Nat) : bitsNeeded v ≤ b ↔ v < 2 ^ b := by
  unfold bitsNeeded
  split
  · subst v; simp
  · rw [← Nat.log2_lt ‹_›]; omega

theorem lt_pow_bitsNeeded (v : Nat) : v < 2 ^ bitsNeeded v := (bitsNeeded_le_iff v _).mp le_rfl

theorem bitsNeeded_mono {u v : Nat} (h : u ≤ v) : bitsNeeded u ≤ bitsNeeded v :=
  (bitsNeeded_le_iff u _).mpr (lt_of_le_of_lt h (lt_pow_bitsNeeded v))

theorem bitsNeeded_word_le (v : Word) : bitsNeeded v.toNat ≤ 32 := (bitsNeeded_le_iff _ _).mpr v.isLt

theorem toNat_maskLow (k : Nat) : (maskLow k).toNat = 2 ^ min k 32 - 1 := by
  unfold maskLow
  split
  · rename_i h
    have : (2:Nat) ^ k ≤ 2 ^ 31 := Nat.pow_le_pow_right (by decide) h
    rw [BitVec.toNat_ofNat, Nat.mod_eq_of_lt (by omega), Nat.min_eq_left (by omega)]
  · rw [Nat.min_eq_right (by omega)]; decide

/-- Masking a word keeps its low bits (R93). -/
theorem toNat_and_maskLow (v : Word) (k : Nat) : (v &&& maskLow k).toNat = v.toNat % 2 ^ k := by
  rw [BitVec.toNat_and, toNat_maskLow, Nat.and_two_pow_sub_one_eq_mod]
  rcases Nat.le_total k 32 with h | h
  · rw [Nat.min_eq_left h]
  · have h1 : v.toNat < 2 ^ 32 := v.isLt
    have h2 : (2:Nat) ^ 32 ≤ 2 ^ k := Nat.pow_le_pow_right (by decide) h
    rw [Nat.min_eq_right h, Nat.mod_eq_of_lt h1, Nat.mod_eq_of_lt (by omega)]

/-- The domain check is the spec's `v < 2^VBITS` (R5). -/
theorem inDomain_iff (p : Params) (v : Nat) : inDomain p v = true ↔ v < 2 ^ p.width := by
  unfold inDomain Params.width
  cases p.vbits <;> simp [VBits.toNat]
  omega

theorem le_maxOf_foldl (vs : List Nat) (a : Nat) : a ≤ vs.foldl max a ∧ ∀ v ∈ vs, v ≤ vs.foldl max a := by
  induction vs generalizing a with
  | nil => simp
  | cons x xs ih =>
    obtain ⟨h1, h2⟩ := ih (max a x)
    refine ⟨by simp only [List.foldl_cons]; omega, ?_⟩
    intro v hv
    rcases List.mem_cons.mp hv with rfl | hv
    · simp only [List.foldl_cons]; omega
    · exact h2 v hv

theorem le_maxOf {vs : List Nat} {v : Nat} (h : v ∈ vs) : v ≤ maxOf vs := (le_maxOf_foldl vs 0).2 v h

theorem foldl_max_mem (vs : List Nat) (a : Nat) : vs.foldl max a = a ∨ vs.foldl max a ∈ vs := by
  induction vs generalizing a with
  | nil => simp
  | cons x xs ih =>
    simp only [List.foldl_cons]
    rcases ih (max a x) with h | h
    · rcases Nat.le_total a x with hax | hax
      · right; rw [h, Nat.max_eq_right hax]; simp
      · left; rw [h, Nat.max_eq_left hax]
    · right; exact List.mem_cons_of_mem _ h

/-- The running maximum is 0 or one of the values (R93, D11). -/
theorem maxOf_mem (vs : List Nat) : maxOf vs = 0 ∨ maxOf vs ∈ vs := foldl_max_mem vs 0

/-! ### The host-owned spaces -/

@[simp] theorem Memory.read_write_same (m : Memory) (j : Nat) (v : Word) : (m.write j v).read j = some v := by
  induction m with
  | nil => simp [Memory.write, Memory.read]
  | cons c rest ih =>
    obtain ⟨a, w⟩ := c
    unfold Memory.write
    split
    · simp [Memory.read]
    · split
      · simp [Memory.read]
      · rename_i h1 h2
        simp [Memory.read, Ne.symm h2, ih]

theorem Memory.read_write_other (m : Memory) {j i : Nat} (v : Word) (h : i ≠ j) :
    (m.write j v).read i = m.read i := by
  induction m with
  | nil => simp [Memory.write, Memory.read, Ne.symm h]
  | cons c rest ih =>
    obtain ⟨a, w⟩ := c
    unfold Memory.write
    split
    · simp [Memory.read, Ne.symm h]
    · split
      · rename_i h2; subst h2
        simp [Memory.read, Ne.symm h]
      · simp [Memory.read, ih]

/-- What consecutive writes leave at an index. -/
theorem Memory.read_writeAll (ws : List Word) (m : Memory) (j i : Nat) :
    (m.writeAll j ws).read i = if j ≤ i ∧ i < j + ws.length then ws[i - j]? else m.read i := by
  induction ws generalizing m j with
  | nil => simp [Memory.writeAll]
  | cons w ws ih =>
    simp only [Memory.writeAll, ih, List.length_cons]
    rcases Nat.lt_trichotomy i j with h | h | h
    · rw [if_neg (by omega), if_neg (by omega), Memory.read_write_other _ _ (by omega)]
    · subst h
      rw [if_neg (by omega), if_pos (by omega)]
      simp
    · by_cases h2 : i < j + 1 + ws.length
      · rw [if_pos (by omega), if_pos (by omega), show i - j = (i - (j + 1)) + 1 by omega]
        simp
      · rw [if_neg (by omega), if_neg (by omega), Memory.read_write_other _ _ (by omega)]

theorem Memory.wf_cons_iff (c : Cell) (m : Memory) :
    Memory.wf (c :: m) = true ↔ (∀ d, m.head? = some d → c.1 < d.1) ∧ Memory.wf m = true := by
  cases m with
  | nil => simp [Memory.wf]
  | cons d rest => simp [Memory.wf]

theorem Memory.head_write (m : Memory) (j : Nat) (v : Word) (d : Cell) (h : (m.write j v).head? = some d) :
    d.1 = j ∨ m.head? = some d := by
  cases m with
  | nil => left; simp [Memory.write] at h; simp [← h]
  | cons c rest =>
    obtain ⟨a, w⟩ := c
    unfold Memory.write at h
    split at h
    · left; simp at h; simp [← h]
    · split at h
      · left; simp at h; simp [← h]
      · right; simpa using h

/-- A write keeps the canonical form. -/
theorem Memory.wf_write (m : Memory) (j : Nat) (v : Word) (h : m.wf = true) : (m.write j v).wf = true := by
  induction m with
  | nil => rfl
  | cons c rest ih =>
    obtain ⟨a, w⟩ := c
    have hr := (Memory.wf_cons_iff _ _).mp h
    unfold Memory.write
    split
    · rename_i hlt
      exact (Memory.wf_cons_iff _ _).mpr ⟨by rintro d hd; simp at hd; simp [← hd]; exact hlt, h⟩
    · split
      · rename_i heq; subst heq
        exact (Memory.wf_cons_iff _ _).mpr hr
      · rename_i h1 h2
        refine (Memory.wf_cons_iff _ _).mpr ⟨fun d hd => ?_, ih hr.2⟩
        rcases Memory.head_write _ _ _ _ hd with h3 | h3
        · simp only [h3]; omega
        · exact hr.1 d h3

/-- Consecutive writes keep the canonical form. -/
theorem Memory.wf_writeAll (ws : List Word) (m : Memory) (j : Nat) (h : m.wf = true) :
    (m.writeAll j ws).wf = true := by
  induction ws generalizing m j with
  | nil => exact h
  | cons w ws ih => exact ih _ _ (Memory.wf_write m j w h)

@[simp] theorem State.length_source (s : State) (n : Nat) : (s.source n).length = n := by simp [State.source]

theorem State.getElem_source (s : State) {n i : Nat} (h : i < n) : (s.source n)[i]? = some (s.readSrc i) := by
  simp [State.source, h]

theorem State.accepts_iff (s : State) (n : Nat) :
    s.accepts n = true ↔ n ≤ s.params.nmax ∧ ∀ j, j < n → (s.readSrc j).toNat < 2 ^ s.params.width := by
  simp [State.accepts, allInDomain, State.source, inDomain_iff]

/-! ### The shared contract -/

/-- What `compress` can do (R121, R136, R156, R195). -/
theorem compressInto_cases (install : State → List Word → State) (n : Nat) (s : State) :
    (s.accepts n = true ∧ compressInto install n s = .next ((install s (s.source n)).reply 0)) ∨
    (s.accepts n = false ∧ compressInto install n s = .next (s.raise .invalidArgument)) := by
  unfold compressInto
  cases h : s.accepts n <;> simp

/-- What `get` can do (R122, R138, R159). -/
theorem getElement_cases (n : Word) (element : Nat → Option Word) (i : Int) (s : State) :
    ((i < 0 ∨ (n.toNat : Int) ≤ i) ∧ getElement n element i s = .next (s.raise .indexOutOfBounds)) ∨
    (∃ j : Nat, i = j ∧ j < n.toNat ∧ getElement n element i s = s.answer (element j)) := by
  unfold getElement
  split
  · left; exact ⟨‹_›, rfl⟩
  · right; exact ⟨i.toNat, by omega, by omega, rfl⟩

/-- What an answer can be. -/
theorem State.answer_cases (s : State) (v : Option Word) :
    (∃ w, v = some w ∧ s.answer v = .next (s.reply w)) ∨ (v = none ∧ s.answer v = .fault .brokenUnit) := by
  cases v with
  | none => right; exact ⟨rfl, rfl⟩
  | some w => left; exact ⟨w, rfl, rfl⟩

/-- The elements collected are exactly the elements, in order. -/
theorem collect_eq_some (element : Nat → Option Word) (i count : Nat) (ws : List Word) :
    collect element i count = some ws ↔ ws.length = count ∧ ∀ j, j < count → element (i + j) = ws[j]? := by
  induction count generalizing i ws with
  | zero =>
    cases ws <;> simp [collect]
  | succ c ih =>
    unfold collect
    constructor
    · intro h
      split at h
      · rename_i w ws' h1 h2
        obtain ⟨hl, hj⟩ := (ih (i + 1) ws').mp h2
        cases h
        refine ⟨by simp [hl], fun j hjc => ?_⟩
        cases j with
        | zero => simpa using h1
        | succ j =>
          have := hj j (by omega)
          simp only [List.getElem?_cons_succ, ← this]
          congr 1; omega
      · cases h
    · rintro ⟨hl, hj⟩
      cases ws with
      | nil => simp at hl
      | cons w ws' =>
        have h0 := hj 0 (by omega)
        simp at h0
        have h1 : collect element (i + 1) c = some ws' := by
          refine (ih (i + 1) ws').mpr ⟨by simpa using hl, fun j hjc => ?_⟩
          have := hj (j + 1) (by omega)
          simp only [List.getElem?_cons_succ] at this
          rw [← this]; congr 1; omega
        simp [h0, h1]

/-- The elements can be collected when each of them exists. -/
theorem collect_isSome (element : Nat → Option Word) (i count : Nat)
    (h : ∀ j, j < count → (element (i + j)).isSome) : ∃ ws, collect element i count = some ws := by
  induction count generalizing i with
  | zero => exact ⟨[], rfl⟩
  | succ c ih =>
    obtain ⟨w, hw⟩ := Option.isSome_iff_exists.mp (h 0 (by omega))
    obtain ⟨ws, hws⟩ := ih (i + 1) (fun j hj => by
      have := h (j + 1) (by omega)
      rwa [show i + 1 + j = i + (j + 1) by omega])
    refine ⟨w :: ws, ?_⟩
    unfold collect
    simp only [Nat.add_zero] at hw
    rw [hw, hws]

/-- What `decompress` can do (R123, R139, R160). -/
theorem fillDestination_cases (n : Word) (element : Nat → Option Word) (dlen : Nat) (s : State) :
    (dlen ≠ n.toNat ∧ fillDestination n element dlen s = .next (s.raise .invalidArgument)) ∨
    (dlen = n.toNat ∧ ∃ ws, collect element 0 n.toNat = some ws ∧
      fillDestination n element dlen s = .next (({ s with dst := s.dst.writeAll 0 ws } : State).reply 0)) ∨
    (dlen = n.toNat ∧ collect element 0 n.toNat = none ∧ fillDestination n element dlen s = .fault .brokenUnit) := by
  unfold fillDestination
  by_cases h : dlen = n.toNat
  · right
    rw [if_neg (by simpa using h)]
    cases hc : collect element 0 n.toNat with
    | none => right; exact ⟨h, rfl, rfl⟩
    | some ws => left; exact ⟨h, ws, rfl, rfl⟩
  · left; exact ⟨h, by rw [if_pos h]⟩

end Sys2Proof.Machine
end

