-- ==== Sys2Proof/Laws/FieldAccess.lean ====
section
/-! SUPPORT. `write_field` and `read_field` bit by bit (R55, R106, R109): every other lemma about a packed buffer
is derived from these. -/

namespace Sys2Proof.Machine

@[simp] theorem length_zeroBuffer (len : Nat) : (zeroBuffer len).length = len := by simp [zeroBuffer]

@[simp] theorem bufBit_zeroBuffer (len q : Nat) : bufBit (zeroBuffer len) q = false := by
  unfold bufBit zeroBuffer
  by_cases h : q / 32 < len <;> simp [List.getD, h]

@[simp] theorem bufBit_nil (q : Nat) : bufBit [] q = false := by simp [bufBit]

theorem bufBit_of_length_le {B : List Word} {q : Nat} (h : 32 * B.length ≤ q) : bufBit B q = false := by
  unfold bufBit
  rw [List.getD_eq_default _ _ (by omega)]
  simp

@[simp] theorem length_orWord (B : List Word) (j v : Nat) : (orWord B j v).length = B.length := by simp [orWord]

theorem bufBit_orWord (B : List Word) (j v q : Nat) (hj : j < B.length) :
    bufBit (orWord B j v) q = (bufBit B q || (decide (q / 32 = j) && v.testBit (q % 32))) := by
  have hb : q % 32 < 32 := Nat.mod_lt _ (by decide)
  unfold bufBit orWord
  by_cases h : q / 32 = j
  · subst h
    have hv : (BitVec.ofNat 32 v).getLsbD (q % 32) = v.testBit (q % 32) := by
      rw [BitVec.getLsbD_ofNat, decide_eq_true hb, Bool.true_and]
    rw [← hv]
    simp [List.getD, List.getElem?_eq_getElem hj, hb]
  · simp [List.getD, h, Ne.symm h]

@[simp] theorem length_writeField (B : List Word) (p w v : Nat) : (writeField B p w v).length = B.length := by
  unfold writeField
  split
  · rfl
  · dsimp only; split <;> simp

/-- R106 bit by bit: inside its range the field's bits are or-ed in, outside nothing changes. -/
theorem bufBit_writeField (B : List Word) (p w v q : Nat) (hw : w ≤ 33) (hp : p + w ≤ 32 * B.length) :
    bufBit (writeField B p w v) q = (bufBit B q || (decide (p ≤ q ∧ q < p + w) && v.testBit (q - p))) := by
  unfold writeField
  split
  · subst w
    rw [decide_eq_false (by omega)]
    simp
  rename_i hw0
  have hq := Nat.div_add_mod q 32
  have hb : q % 32 < 32 := Nat.mod_lt _ (by decide)
  have hpd := Nat.div_add_mod p 32
  have ho : p % 32 < 32 := Nat.mod_lt _ (by decide)
  dsimp only
  split
  · rename_i hfit
    rw [bufBit_orWord _ _ _ _ (by omega)]
    congr 1
    rw [Nat.testBit_shiftLeft, Nat.testBit_mod_two_pow, Bool.eq_iff_iff]
    simp only [Bool.and_eq_true, decide_eq_true_eq]
    constructor
    · rintro ⟨h1, h2, h3, h4⟩
      exact ⟨by omega, by rwa [show q - p = q % 32 - p % 32 by omega]⟩
    · rintro ⟨h1, h2⟩
      exact ⟨by omega, by omega, by omega, by rwa [show q % 32 - p % 32 = q - p by omega]⟩
  · rename_i hfit
    rw [bufBit_orWord _ _ _ _ (by simp; omega), bufBit_orWord _ _ _ _ (by omega), Bool.or_assoc]
    congr 1
    rw [Nat.testBit_shiftLeft, Nat.testBit_mod_two_pow, Nat.testBit_mod_two_pow, Nat.testBit_shiftRight,
      Nat.testBit_mod_two_pow, Bool.eq_iff_iff]
    simp only [Bool.or_eq_true, Bool.and_eq_true, decide_eq_true_eq]
    constructor
    · rintro (⟨h1, h2, h3, h4, h5⟩ | ⟨h1, h2, h3⟩)
      · exact ⟨by omega, by rwa [show q - p = q % 32 - p % 32 by omega]⟩
      · exact ⟨by omega, by rwa [show q - p = 32 - p % 32 + q % 32 by omega]⟩
    · rintro ⟨h1, h2⟩
      by_cases hc : q / 32 = p / 32
      · left
        exact ⟨by omega, by omega, by omega, by omega, by rwa [show q % 32 - p % 32 = q - p by omega]⟩
      · right
        exact ⟨by omega, by omega, by rwa [show 32 - p % 32 + q % 32 = q - p by omega]⟩

theorem testBit_word (B : List Word) (j b : Nat) (x : Word) (h : B[j]? = some x) (hb : b < 32) :
    x.toNat.testBit b = bufBit B (32 * j + b) := by
  unfold bufBit
  rw [show (32 * j + b) / 32 = j by omega, show (32 * j + b) % 32 = b by omega]
  simp [List.getD, h, BitVec.getLsbD]

/-- R109 bit by bit: what `read_field` answers is the field's bits and nothing else. -/
theorem testBit_readField (B : List Word) (p w f b : Nat) (h : readField B p w = some f) :
    f.testBit b = (decide (b < w) && bufBit B (p + b)) := by
  unfold readField at h
  have hpd := Nat.div_add_mod p 32
  have ho : p % 32 < 32 := Nat.mod_lt _ (by decide)
  split at h
  · cases h; subst w; simp
  split at h
  · cases h
  rename_i hw0 hw
  dsimp only at h
  split at h
  · rename_i hfit
    split at h
    · rename_i x hx
      cases h
      rw [Nat.testBit_mod_two_pow, Nat.testBit_shiftRight]
      by_cases hb : b < w
      · rw [testBit_word B _ _ x hx (by omega)]
        simp only [hb, decide_true, Bool.true_and]
        congr 1; omega
      · simp [hb]
    · cases h
  · rename_i hfit
    split at h
    · rename_i x0 x1 h0 h1
      cases h
      rw [Nat.testBit_or, Nat.testBit_shiftRight, Nat.testBit_shiftLeft, Nat.testBit_mod_two_pow]
      by_cases hb : b < 32 - p % 32
      · rw [testBit_word B _ _ x0 h0 (by omega)]
        have : ¬ (b ≥ 32 - p % 32) := by omega
        simp only [this, decide_false, Bool.false_and, Bool.or_false]
        rw [decide_eq_true (show b < w by omega), Bool.true_and]
        congr 1; omega
      · have hz : x0.toNat.testBit (p % 32 + b) = false :=
          Nat.testBit_lt_two_pow (lt_of_lt_of_le x0.isLt (Nat.pow_le_pow_right (by decide) (by omega)))
        rw [hz, Bool.false_or, decide_eq_true (show b ≥ 32 - p % 32 by omega), Bool.true_and]
        by_cases hbw : b < w
        · rw [testBit_word B _ _ x1 h1 (by omega), decide_eq_true hbw, decide_eq_true (by omega)]
          simp only [Bool.true_and]
          congr 1; omega
        · rw [decide_eq_false hbw, decide_eq_false (by omega)]; simp
    · cases h

/-- A field read is below `2^w` (R109). -/
theorem readField_lt (B : List Word) (p w f : Nat) (h : readField B p w = some f) : f < 2 ^ w := by
  refine Nat.lt_pow_two_of_testBit f fun b hb => ?_
  rw [testBit_readField B p w f b h, decide_eq_false (by omega), Bool.false_and]

/-- A field inside the buffer can be read (R59). -/
theorem readField_isSome (B : List Word) (p w : Nat) (hw : w ≤ 33) (hp : p + w ≤ 32 * B.length) :
    ∃ f, readField B p w = some f := by
  unfold readField
  have hpd := Nat.div_add_mod p 32
  have ho : p % 32 < 32 := Nat.mod_lt _ (by decide)
  split
  · exact ⟨0, rfl⟩
  rw [if_neg (by omega)]
  dsimp only
  split
  · rw [List.getElem?_eq_getElem (show p / 32 < B.length by omega)]
    exact ⟨_, rfl⟩
  · rw [List.getElem?_eq_getElem (show p / 32 < B.length by omega),
      List.getElem?_eq_getElem (show p / 32 + 1 < B.length by omega)]
    exact ⟨_, rfl⟩

/-- What a field inside the buffer reads as, from the buffer's bits. -/
theorem readField_eq_mod (B : List Word) (p w v : Nat) (hw : w ≤ 33) (hp : p + w ≤ 32 * B.length)
    (h : ∀ b, b < w → bufBit B (p + b) = v.testBit b) : readField B p w = some (v % 2 ^ w) := by
  obtain ⟨f, hf⟩ := readField_isSome B p w hw hp
  rw [hf]
  congr 1
  refine Nat.eq_of_testBit_eq fun b => ?_
  rw [testBit_readField B p w f b hf, Nat.testBit_mod_two_pow]
  by_cases hb : b < w
  · rw [h b hb]
  · simp [hb]

/-! ### Fields end to end -/

@[simp] theorem length_writeFields (w i : Nat) (fs : List Nat) (B : List Word) :
    (writeFields w i fs B).length = B.length := by
  induction fs generalizing i B with
  | nil => rfl
  | cons f fs ih => simp [writeFields, ih]

/-- The bits of a buffer after `fs` is written from index `i` on (R111). -/
theorem bufBit_writeFields (w i : Nat) (fs : List Nat) (B : List Word) (q : Nat) (hw : w ≤ 33)
    (hp : (i + fs.length) * w ≤ 32 * B.length) :
    bufBit (writeFields w i fs B) q = (bufBit B q ||
      (decide (i * w ≤ q ∧ q < (i + fs.length) * w) && (fs.getD (q / w - i) 0).testBit (q % w))) := by
  induction fs generalizing i B with
  | nil =>
    have : ¬ (i * w ≤ q ∧ q < i * w) := by omega
    simp [writeFields, this]
  | cons f fs ih =>
    simp only [List.length_cons] at hp
    have e1 : (i + 1 + fs.length) * w = (i + (fs.length + 1)) * w := by ring
    have e2 : (i + 1) * w = i * w + w := by ring
    have e3 : (i + (fs.length + 1)) * w = (i + 1) * w + fs.length * w := by ring
    simp only [writeFields]
    rw [ih (i + 1) _ (by simpa [e1] using hp), bufBit_writeField _ _ _ _ _ hw (by omega), Bool.or_assoc]
    congr 1
    rw [e1, List.length_cons]
    by_cases hw0 : w = 0
    · subst hw0; simp
    have hwp : 0 < w := Nat.pos_of_ne_zero hw0
    by_cases hin : i * w ≤ q ∧ q < i * w + w
    · have hdiv : q / w = i := by
        rw [Nat.div_eq_iff hwp]; constructor
        · omega
        · rw [Nat.mul_comm] at *; omega
      have hmod : q % w = q - i * w := by
        have := Nat.div_add_mod q w
        rw [hdiv, Nat.mul_comm] at this; omega
      have hnot : ¬ ((i + 1) * w ≤ q ∧ q < (i + (fs.length + 1)) * w) := by omega
      have hyes : i * w ≤ q ∧ q < (i + (fs.length + 1)) * w := by omega
      rw [decide_eq_true hin, decide_eq_false hnot, decide_eq_true hyes, hdiv, hmod]
      simp
    · rw [decide_eq_false hin, Bool.false_and, Bool.false_or]
      by_cases h2 : (i + 1) * w ≤ q ∧ q < (i + (fs.length + 1)) * w
      · have hyes : i * w ≤ q ∧ q < (i + (fs.length + 1)) * w := by omega
        have hge : i + 1 ≤ q / w := (Nat.le_div_iff_mul_le hwp).mpr h2.1
        rw [decide_eq_true h2, decide_eq_true hyes, show q / w - i = (q / w - (i + 1)) + 1 by omega]
        simp
      · have hno : ¬ (i * w ≤ q ∧ q < (i + (fs.length + 1)) * w) := by omega
        rw [decide_eq_false h2, decide_eq_false hno]; simp

/-- Fields written to a zeroed buffer read back (R111). -/
theorem readField_writeFields (w : Nat) (fs : List Nat) (len i : Nat) (hw : w ≤ 33)
    (hp : fs.length * w ≤ 32 * len) (hi : i < fs.length) :
    readField (writeFields w 0 fs (zeroBuffer len)) (i * w) w = some (fs[i] % 2 ^ w) := by
  have hmul : (i + 1) * w ≤ fs.length * w := Nat.mul_le_mul_right w hi
  have e2 : (i + 1) * w = i * w + w := by ring
  refine readField_eq_mod _ _ _ _ hw (by simp; omega) fun b hb => ?_
  rw [bufBit_writeFields _ _ _ _ _ hw (by simpa using hp)]
  have hdiv : (i * w + b) / w = i := by
    rw [Nat.mul_comm, Nat.mul_add_div (by omega), Nat.div_eq_of_lt hb]; rfl
  have hmod : (i * w + b) % w = b := by
    rw [Nat.mul_comm, Nat.mul_add_mod, Nat.mod_eq_of_lt hb]
  rw [hdiv, hmod, bufBit_zeroBuffer, decide_eq_true (by simp; omega)]
  simp [hi]

/-- Past the last field a freshly written buffer is zero: unused trailing bits (R23, R27, R111). -/
theorem bufBit_writeFields_tail (w : Nat) (fs : List Nat) (len q : Nat) (hw : w ≤ 33)
    (hp : fs.length * w ≤ 32 * len) (hq : fs.length * w ≤ q) :
    bufBit (writeFields w 0 fs (zeroBuffer len)) q = false := by
  rw [bufBit_writeFields _ _ _ _ _ hw (by simpa using hp), bufBit_zeroBuffer, decide_eq_false (by simp; omega)]
  rfl

end Sys2Proof.Machine
end

