-- ==== Sys2Proof/Laws/CrossWord.lean ====
section
/-! SUPPORT. The width of units X and N, and what unit X holds after packing a sequence (R121, R125). -/

namespace Sys2Proof.Machine

theorem mem_map_toNat_lt {vs : List Word} {v : Nat} (h : v ∈ vs.map BitVec.toNat) : v < 2 ^ 32 := by
  obtain ⟨w, -, rfl⟩ := List.mem_map.mp h
  exact w.isLt

/-- The clamp of R121 step 2 is without effect (C4). -/
theorem fieldWidth_eq (vs : List Word) : fieldWidth vs = bitsNeeded (maxOf (vs.map BitVec.toNat)) := by
  unfold fieldWidth
  refine Nat.min_eq_left ((bitsNeeded_le_iff _ _).mpr ?_)
  rcases maxOf_mem (vs.map BitVec.toNat) with h | h
  · rw [h]; decide
  · exact mem_map_toNat_lt h

theorem fieldWidth_le (vs : List Word) : fieldWidth vs ≤ 32 := Nat.min_le_right _ _

/-- Every value fits the field (R96, R121). -/
theorem lt_pow_fieldWidth {vs : List Word} {v : Word} (h : v ∈ vs) : v.toNat < 2 ^ fieldWidth vs := by
  rw [fieldWidth_eq]
  exact lt_of_le_of_lt (le_maxOf (List.mem_map_of_mem h)) (lt_pow_bitsNeeded _)

/-- In the value domain the width is at most VBITS (R23). -/
theorem fieldWidth_le_width (p : Params) (vs : List Word) (h : ∀ v ∈ vs, v.toNat < 2 ^ p.width) :
    fieldWidth vs ≤ p.width := by
  rw [fieldWidth_eq, bitsNeeded_le_iff]
  rcases maxOf_mem (vs.map BitVec.toNat) with hm | hm
  · rw [hm]; exact Nat.two_pow_pos _
  · obtain ⟨w, hw, he⟩ := List.mem_map.mp hm
    rw [← he]; exact h w hw

theorem toNat_ofNat_six {k : Nat} (h : k ≤ 33) : (BitVec.ofNat 6 k).toNat = k := by
  rw [BitVec.toNat_ofNat, Nat.mod_eq_of_lt (by omega)]

theorem toNat_ofNat_word {n : Nat} (h : n < 2 ^ 32) : (BitVec.ofNat 32 n).toNat = n := by
  rw [BitVec.toNat_ofNat, Nat.mod_eq_of_lt h]

theorem resultWord_of_lt {v : Nat} (h : v < 2 ^ 32) : resultWord v = some (BitVec.ofNat 32 v) := by
  simp only [resultWord, if_pos h]

@[simp] theorem resultWord_toNat (v : Word) : resultWord v.toNat = some v := by
  rw [resultWord_of_lt v.isLt]
  simp

theorem packX_n {vs : List Word} (h : vs.length < 2 ^ 32) : (packX vs).n.toNat = vs.length := toNat_ofNat_word h

theorem packX_k (vs : List Word) : (packX vs).k.toNat = fieldWidth vs :=
  toNat_ofNat_six (le_trans (fieldWidth_le vs) (by decide))

theorem packX_length (vs : List Word) : (packX vs).buf.length = ceilDiv (vs.length * fieldWidth vs) 32 := by
  simp [packX]

theorem packX_fits (vs : List Word) :
    (vs.map fun v => (v &&& maskLow (fieldWidth vs)).toNat).length * fieldWidth vs ≤
      32 * ceilDiv (vs.length * fieldWidth vs) 32 := by
  rw [List.length_map]; exact ceilDiv_mul_ge _ _ (by decide)

/-- Field `i` of unit X after packing is the source value (R23, R125). -/
theorem readField_packX (vs : List Word) (i : Nat) (hi : i < vs.length) :
    readField (packX vs).buf (i * fieldWidth vs) (fieldWidth vs) = some vs[i].toNat := by
  have := readField_writeFields (fieldWidth vs) (vs.map fun v => (v &&& maskLow (fieldWidth vs)).toNat)
    (ceilDiv (vs.length * fieldWidth vs) 32) i (le_trans (fieldWidth_le vs) (by decide)) (packX_fits vs) (by simpa)
  simp only [packX]
  rw [this, List.getElem_map, toNat_and_maskLow, Nat.mod_mod, Nat.mod_eq_of_lt (lt_pow_fieldWidth (List.getElem_mem hi))]

/-- Element `i` of unit X after packing is the source value (R125). -/
theorem element_packX (vs : List Word) (i : Nat) (hi : i < vs.length) : (packX vs).element i = some vs[i] := by
  unfold XUnit.element
  rw [packX_k, readField_packX vs i hi]
  simp

/-- Packing establishes the invariants of unit X (R23). -/
theorem packX_inv (p : Params) (vs : List Word) (hn : vs.length ≤ p.nmax) (hv : ∀ v ∈ vs, v.toNat < 2 ^ p.width) :
    (packX vs).Inv p := by
  have hlen : vs.length < 2 ^ 32 := lt_of_le_of_lt hn (lt_of_le_of_lt p.nmax_le (by decide))
  constructor
  · rwa [packX_n hlen]
  · rw [packX_k]; exact le_min (fieldWidth_le vs) (fieldWidth_le_width p vs hv)
  · rw [packX_n hlen, packX_k, packX_length]
  · intro q hq
    rw [packX_n hlen, packX_k] at hq
    exact bufBit_writeFields_tail _ _ _ _ (le_trans (fieldWidth_le vs) (by decide)) (packX_fits vs)
      (by rwa [List.length_map])

theorem reset_invX (p : Params) : XUnit.reset.Inv p := packX_inv p [] (Nat.zero_le _) (by simp)

/-- In every state the invariants admit, an element of unit X exists: the read is inside the buffer and its
result fits RESULT (R59, R122). -/
theorem XUnit.Inv.element_eq {p : Params} {u : XUnit} (h : u.Inv p) {i : Nat} (hi : i < u.n.toNat) :
    ∃ f, readField u.buf (i * u.k.toNat) u.k.toNat = some f ∧ f < 2 ^ u.k.toNat ∧
      u.element i = some (BitVec.ofNat 32 f) := by
  have hk : u.k.toNat ≤ 32 := le_trans h.k_le (Nat.min_le_left _ _)
  have hmul : (i + 1) * u.k.toNat ≤ u.n.toNat * u.k.toNat := Nat.mul_le_mul_right _ hi
  have hlen := ceilDiv_mul_ge (u.n.toNat * u.k.toNat) 32 (by decide)
  have e : (i + 1) * u.k.toNat = i * u.k.toNat + u.k.toNat := by ring
  obtain ⟨f, hf⟩ := readField_isSome u.buf (i * u.k.toNat) u.k.toNat (by omega) (by rw [h.len]; omega)
  have hlt := readField_lt _ _ _ _ hf
  refine ⟨f, hf, hlt, ?_⟩
  unfold XUnit.element
  rw [hf]
  exact resultWord_of_lt (lt_of_lt_of_le hlt (Nat.pow_le_pow_right (by decide) hk))

end Sys2Proof.Machine
end

