-- ==== Sys2Proof/Laws/NoCross.lean ====
section
/-! SUPPORT. What unit N holds after packing a sequence (R136, R137, R141). -/

namespace Sys2Proof.Machine

theorem fieldsPerWord_pos {k : Nat} (hk : k ≤ 32) : 1 ≤ fieldsPerWord k := by
  unfold fieldsPerWord
  split
  · omega
  · exact (Nat.le_div_iff_mul_le (by omega)).mpr (by omega)

theorem fieldsPerWord_le (k : Nat) : fieldsPerWord k ≤ 32 := by
  unfold fieldsPerWord
  split
  · omega
  · exact Nat.div_le_self _ _

/-- The slots of a word lie inside it (R136). -/
theorem fieldsPerWord_mul_le (k : Nat) : fieldsPerWord k * k ≤ 32 := by
  unfold fieldsPerWord
  split
  · subst k; omega
  · exact Nat.div_mul_le_self _ _

@[simp] theorem length_writeSlots (fpw k i : Nat) (vs B : List Word) : (writeSlots fpw k i vs B).length = B.length := by
  induction vs generalizing i B with
  | nil => rfl
  | cons v vs ih => simp [writeSlots, ih]

/-- A field of width 0 adds nothing to a word (R136, `k = 0`). -/
theorem bufBit_writeSlots_zero (fpw i : Nat) (vs B : List Word) (q : Nat) (hf : 0 < fpw)
    (hlen : i + vs.length ≤ fpw * B.length) : bufBit (writeSlots fpw 0 i vs B) q = bufBit B q := by
  induction vs generalizing i B with
  | nil => rfl
  | cons v vs ih =>
    simp only [List.length_cons] at hlen
    simp only [writeSlots]
    have hi : i / fpw < B.length := by rw [Nat.div_lt_iff_lt_mul hf, Nat.mul_comm]; omega
    rw [ih (i + 1) _ (by simp; omega), bufBit_orWord _ _ _ _ hi, toNat_and_maskLow]
    simp [Nat.mod_one]

/-- The bits of unit N's buffer after `vs` is written from index `i` on: slot `s` of word `j` holds element
`j * fpw + s`, and nothing else changes (R136, R141). -/
theorem bufBit_writeSlots (fpw k i : Nat) (vs B : List Word) (j b : Nat) (hk : 0 < k)
    (hf : 0 < fpw) (hb : b < 32) (hlen : i + vs.length ≤ fpw * B.length) :
    bufBit (writeSlots fpw k i vs B) (32 * j + b) = (bufBit B (32 * j + b) ||
      (decide (b < fpw * k ∧ i ≤ j * fpw + b / k ∧ j * fpw + b / k < i + vs.length) &&
        (vs.getD (j * fpw + b / k - i) 0).getLsbD (b % k))) := by
  induction vs generalizing i B with
  | nil =>
    rw [decide_eq_false (by simp)]
    simp [writeSlots]
  | cons v vs ih =>
    simp only [List.length_cons] at hlen
    have hi : i / fpw < B.length := by rw [Nat.div_lt_iff_lt_mul hf, Nat.mul_comm]; omega
    have him : i % fpw < fpw := Nat.mod_lt _ hf
    have hid : fpw * (i / fpw) + i % fpw = i := Nat.div_add_mod i fpw
    have hslot : (i % fpw + 1) * k ≤ fpw * k := Nat.mul_le_mul_right _ him
    have hs1 : (i % fpw + 1) * k = i % fpw * k + k := by ring
    simp only [writeSlots]
    rw [ih (i + 1) _ (by simp; omega), bufBit_orWord _ _ _ _ hi, toNat_and_maskLow, Nat.testBit_shiftLeft,
      Nat.testBit_mod_two_pow, Bool.or_assoc, show (32 * j + b) / 32 = j by omega,
      show (32 * j + b) % 32 = b by omega]
    congr 1
    have hbk := Nat.div_add_mod b k
    have hbm : b % k < k := Nat.mod_lt _ hk
    by_cases hin : j = i / fpw ∧ i % fpw * k ≤ b ∧ b < i % fpw * k + k
    · obtain ⟨hj, h1, h2⟩ := hin
      have hdiv : b / k = i % fpw := by
        rw [Nat.div_eq_iff hk]
        constructor
        · omega
        · rw [Nat.mul_comm] at *; omega
      have hmod : b % k = b - i % fpw * k := by rw [hdiv, Nat.mul_comm] at hbk; omega
      have hidx : j * fpw + b / k = i := by rw [hj, hdiv, Nat.mul_comm]; exact hid
      rw [decide_eq_true hj, decide_eq_true (show b ≥ i % fpw * k from h1),
        decide_eq_true (show b - i % fpw * k < k by omega), hidx, hmod,
        decide_eq_false (by omega), decide_eq_true (by simp only [List.length_cons]; omega)]
      simp [BitVec.getLsbD]
    · have hz : (decide (j = i / fpw) && (decide (b ≥ i % fpw * k) && (decide (b - i % fpw * k < k) &&
          v.toNat.testBit (b - i % fpw * k)))) = false := by
        by_contra hne
        simp only [Bool.not_eq_false, Bool.and_eq_true, decide_eq_true_eq] at hne
        exact hin ⟨hne.1, hne.2.1, by omega⟩
      rw [hz, Bool.false_or]
      have hidx : b < fpw * k → j * fpw + b / k ≠ i := by
        intro hbf hc
        have hbd : b / k < fpw := (Nat.div_lt_iff_lt_mul hk).mpr hbf
        have h1 : j = i / fpw := by
          rw [← hc, Nat.mul_comm, Nat.mul_add_div hf, Nat.div_eq_of_lt hbd]; rfl
        have h2 : b / k = i % fpw := by
          rw [← hc, Nat.mul_comm, Nat.mul_add_mod, Nat.mod_eq_of_lt hbd]
        rw [h2, Nat.mul_comm] at hbk
        exact hin ⟨h1, by omega, by omega⟩
      by_cases hc : b < fpw * k ∧ i + 1 ≤ j * fpw + b / k ∧ j * fpw + b / k < i + 1 + vs.length
      · rw [decide_eq_true hc, decide_eq_true (by simp only [List.length_cons]; omega),
          show j * fpw + b / k - i = (j * fpw + b / k - (i + 1)) + 1 by omega]
        simp
      · rw [decide_eq_false hc, decide_eq_false (by
          simp only [List.length_cons]
          rintro ⟨h1, h2, h3⟩
          have := hidx h1
          omega)]
        simp

theorem packN_n {vs : List Word} (h : vs.length < 2 ^ 32) : (packN vs).n.toNat = vs.length := toNat_ofNat_word h

theorem packN_k (vs : List Word) : (packN vs).k.toNat = fieldWidth vs :=
  toNat_ofNat_six (le_trans (fieldWidth_le vs) (by decide))

theorem packN_fpw (vs : List Word) : (packN vs).fieldsPerWord.toNat = fieldsPerWord (fieldWidth vs) :=
  toNat_ofNat_six (le_trans (fieldsPerWord_le _) (by decide))

theorem packN_length (vs : List Word) :
    (packN vs).buf.length = ceilDiv vs.length (fieldsPerWord (fieldWidth vs)) := by
  simp [packN]

/-- The bits of unit N's buffer after packing (R136): slot `s` of word `j` holds value `j * fpw + s`. -/
theorem bufBit_packN (vs : List Word) (j b : Nat) (hb : b < 32) :
    bufBit (packN vs).buf (32 * j + b) =
      (decide (b < fieldsPerWord (fieldWidth vs) * fieldWidth vs ∧
          j * fieldsPerWord (fieldWidth vs) + b / fieldWidth vs < vs.length) &&
        (vs.getD (j * fieldsPerWord (fieldWidth vs) + b / fieldWidth vs) 0).getLsbD (b % fieldWidth vs)) := by
  have hf := fieldsPerWord_pos (fieldWidth_le vs)
  have hfit := ceilDiv_mul_ge vs.length (fieldsPerWord (fieldWidth vs)) hf
  simp only [packN]
  rcases Nat.eq_zero_or_pos (fieldWidth vs) with h0 | hk
  · rw [h0] at hf hfit ⊢
    rw [bufBit_writeSlots_zero _ _ _ _ _ hf (by simpa using hfit)]
    simp
  · rw [bufBit_writeSlots _ _ _ _ _ _ _ hk hf hb (by simpa using hfit)]
    simp

/-- Element `i` of unit N after packing is the source value (R141). -/
theorem element_packN (vs : List Word) (i : Nat) (hi : i < vs.length) : (packN vs).element i = some vs[i] := by
  have hf := fieldsPerWord_pos (fieldWidth_le vs)
  have hfit := ceilDiv_mul_ge vs.length (fieldsPerWord (fieldWidth vs)) hf
  have hfk := fieldsPerWord_mul_le (fieldWidth vs)
  have hw : i / fieldsPerWord (fieldWidth vs) < (packN vs).buf.length := by
    rw [packN_length, Nat.div_lt_iff_lt_mul hf, Nat.mul_comm]; omega
  have hs : i % fieldsPerWord (fieldWidth vs) < fieldsPerWord (fieldWidth vs) := Nat.mod_lt _ hf
  have hid := Nat.div_add_mod i (fieldsPerWord (fieldWidth vs))
  have hslot : (i % fieldsPerWord (fieldWidth vs) + 1) * fieldWidth vs ≤
    fieldsPerWord (fieldWidth vs) * fieldWidth vs := Nat.mul_le_mul_right _ hs
  have hs1 : (i % fieldsPerWord (fieldWidth vs) + 1) * fieldWidth vs =
    i % fieldsPerWord (fieldWidth vs) * fieldWidth vs + fieldWidth vs := by ring
  unfold NUnit.element
  rw [packN_fpw, packN_k, if_neg (by omega), List.getElem?_eq_getElem hw]
  simp only [Option.some.injEq]
  apply BitVec.eq_of_toNat_eq
  rw [toNat_and_maskLow, BitVec.toNat_ushiftRight]
  refine Nat.eq_of_testBit_eq fun b => ?_
  rw [Nat.testBit_mod_two_pow, Nat.testBit_shiftRight]
  by_cases hb : b < fieldWidth vs
  · rw [decide_eq_true hb, Bool.true_and,
      testBit_word (packN vs).buf _ _ _ (List.getElem?_eq_getElem hw) (by omega), bufBit_packN _ _ _ (by omega)]
    have hdiv : (i % fieldsPerWord (fieldWidth vs) * fieldWidth vs + b) / fieldWidth vs =
        i % fieldsPerWord (fieldWidth vs) := by
      rw [Nat.mul_comm, Nat.mul_add_div (by omega), Nat.div_eq_of_lt hb]; rfl
    have hmod : (i % fieldsPerWord (fieldWidth vs) * fieldWidth vs + b) % fieldWidth vs = b := by
      rw [Nat.mul_comm, Nat.mul_add_mod, Nat.mod_eq_of_lt hb]
    rw [hdiv, hmod, Nat.mul_comm (i / _), hid, decide_eq_true (by constructor <;> omega)]
    simp [hi, BitVec.getLsbD]
  · rw [decide_eq_false hb, Bool.false_and]
    exact (Nat.testBit_lt_two_pow (lt_of_lt_of_le (lt_pow_fieldWidth (List.getElem_mem hi))
      (Nat.pow_le_pow_right (by decide) (by omega)))).symm

/-- Packing establishes the invariants of unit N (R25). -/
theorem packN_inv (p : Params) (vs : List Word) (hn : vs.length ≤ p.nmax) (hv : ∀ v ∈ vs, v.toNat < 2 ^ p.width) :
    (packN vs).Inv p := by
  have hlen : vs.length < 2 ^ 32 := lt_of_le_of_lt hn (lt_of_le_of_lt p.nmax_le (by decide))
  have hfk := fieldsPerWord_mul_le (fieldWidth vs)
  constructor
  · rwa [packN_n hlen]
  · rw [packN_k]; exact le_min (fieldWidth_le vs) (fieldWidth_le_width p vs hv)
  · rw [packN_fpw, packN_k]
  · rw [packN_n hlen, packN_fpw, packN_length]
  · intro j b hb hq
    rw [packN_fpw, packN_k] at hq
    rw [bufBit_packN _ _ _ hb, decide_eq_false (by omega), Bool.false_and]
  · intro slot b hs hb hq
    rw [packN_fpw] at hs
    rw [packN_k] at hb
    rw [packN_fpw, packN_n hlen] at hq
    have hslot : (slot + 1) * fieldWidth vs ≤ fieldsPerWord (fieldWidth vs) * fieldWidth vs :=
      Nat.mul_le_mul_right _ hs
    have hs1 : (slot + 1) * fieldWidth vs = slot * fieldWidth vs + fieldWidth vs := by ring
    have hdiv : (slot * fieldWidth vs + b) / fieldWidth vs = slot := by
      rw [Nat.mul_comm, Nat.mul_add_div (by omega), Nat.div_eq_of_lt hb]; rfl
    rw [packN_k, bufBit_packN _ _ _ (by omega), hdiv, decide_eq_false (by omega), Bool.false_and]

theorem reset_invN (p : Params) : NUnit.reset.Inv p := packN_inv p [] (Nat.zero_le _) (by simp)

/-- In every state the invariants admit, an element of unit N exists (R59, R138). -/
theorem NUnit.Inv.element_eq {p : Params} {u : NUnit} (h : u.Inv p) {i : Nat} (hi : i < u.n.toNat) :
    ∃ x, u.buf[i / u.fieldsPerWord.toNat]? = some x ∧
      u.element i = some ((x >>> (i % u.fieldsPerWord.toNat * u.k.toNat)) &&& maskLow u.k.toNat) := by
  have hf : 1 ≤ u.fieldsPerWord.toNat := by
    rw [h.fpw]; exact fieldsPerWord_pos (le_trans h.k_le (Nat.min_le_left _ _))
  have hfit := ceilDiv_mul_ge u.n.toNat u.fieldsPerWord.toNat hf
  have hw : i / u.fieldsPerWord.toNat < u.buf.length := by
    rw [h.len, Nat.div_lt_iff_lt_mul hf, Nat.mul_comm]; omega
  refine ⟨_, List.getElem?_eq_getElem hw, ?_⟩
  unfold NUnit.element
  rw [if_neg (by omega), List.getElem?_eq_getElem hw]

end Sys2Proof.Machine
end

