-- ==== Sys2Proof/Laws/Overflow.lean ====
section
/-! SUPPORT. The flag encoder (R150, R151), the width search (R153), and what unit O holds after packing a sequence
(R156 to R158, R162). -/

namespace Sys2Proof.Machine

/-! ### The flag encoder and decoder -/

theorem encField_eq {flag : Nat} (content : Nat) (h : flag < 2) : encField flag content = 2 * content + flag := by
  unfold encField
  rw [← Nat.shiftLeft_add_eq_or_of_lt (by simpa using h), Nat.shiftLeft_eq]
  omega

theorem decField_fst (field : Nat) : (decField field).1 = field % 2 := rfl

theorem decField_snd (field : Nat) : (decField field).2 = field / 2 := by
  simp [decField, Nat.shiftRight_eq_div_pow]

/-! ### The search -/

/-- What the search has found after candidates `0 .. m` (R153). -/
theorem search_invariant (bs : List Nat) (m : Nat) :
    let r := ((List.range m).map (· + 1)).foldl (betterOf bs) (0, totalBits bs 0)
    r.2 = totalBits bs r.1 ∧ r.1 ≤ m ∧ (∀ j, j ≤ m → totalBits bs r.1 ≤ totalBits bs j) ∧
      ∀ j, j < r.1 → totalBits bs r.1 < totalBits bs j := by
  induction m with
  | zero =>
    refine ⟨rfl, le_rfl, fun j hj => ?_, fun j hj => absurd hj (by simp)⟩
    rw [Nat.le_zero.mp hj]; simp
  | succ m ih =>
    obtain ⟨h1, h2, h3, h4⟩ := ih
    simp only [List.range_succ, List.map_append, List.map_cons, List.map_nil, List.foldl_append, List.foldl_cons,
      List.foldl_nil]
    generalize ((List.range m).map (· + 1)).foldl (betterOf bs) (0, totalBits bs 0) = r at h1 h2 h3 h4
    unfold betterOf
    split
    · rename_i hlt
      rw [h1] at hlt
      refine ⟨rfl, le_rfl, fun j hj => ?_, fun j hj => ?_⟩
      · rcases Nat.lt_or_ge m j with h | h
        · rw [show j = m + 1 by omega]
        · exact le_trans (le_of_lt hlt) (h3 j h)
      · exact lt_of_lt_of_le hlt (h3 j (by simp only at hj; omega))
    · rename_i hge
      rw [h1] at hge
      refine ⟨h1, by omega, fun j hj => ?_, h4⟩
      rcases Nat.lt_or_ge m j with h | h
      · rw [show j = m + 1 by omega]; omega
      · exact h3 j h

theorem bestWidth_le (bs : List Nat) : bestWidth bs ≤ lastCandidate bs := (search_invariant bs _).2.1

/-- No candidate has a smaller total (R153, R154). -/
theorem bestWidth_min (bs : List Nat) (j : Nat) (h : j ≤ lastCandidate bs) :
    totalBits bs (bestWidth bs) ≤ totalBits bs j := (search_invariant bs _).2.2.1 j h

/-- Every smaller candidate has a greater total: ties go to the smaller width (R153). -/
theorem bestWidth_first (bs : List Nat) (j : Nat) (h : j < bestWidth bs) :
    totalBits bs (bestWidth bs) < totalBits bs j := (search_invariant bs _).2.2.2 j h

/-! ### Overflow occurrences -/

theorem overflowCountAt_widthsOf (vs : List Word) (k : Nat) :
    overflowCountAt (widthsOf vs) k = vs.countP (overflows k) := by
  unfold overflowCountAt widthsOf
  rw [List.countP_map]
  rfl

theorem overflowCountAt_le (bs : List Nat) (k : Nat) : overflowCountAt bs k ≤ bs.length := List.countP_le_length

@[simp] theorem length_widthsOf (vs : List Word) : (widthsOf vs).length = vs.length := by simp [widthsOf]

theorem indexBits_le {count : Nat} (h : count ≤ 2147483647) : indexBits count ≤ 31 := by
  unfold indexBits
  split
  · exact (bitsNeeded_le_iff _ _).mpr (by omega)
  · omega

/-- A rank fits the index bits of the table (R156). -/
theorem lt_pow_indexBits {rank count : Nat} (h : rank < count) : rank < 2 ^ indexBits count := by
  unfold indexBits
  rw [if_pos (by omega)]
  exact lt_of_le_of_lt (by omega : rank ≤ count - 1) (lt_pow_bitsNeeded _)

/-- The rank of position `i` among the overflow occurrences (R156 step 6). -/
def rankOf (petitK : Nat) (vs : List Word) (i : Nat) : Nat := (vs.take i).countP (overflows petitK)

theorem rankOf_lt (petitK : Nat) (vs : List Word) (i : Nat) (hi : i < vs.length) (h : overflows petitK vs[i] = true) :
    rankOf petitK vs i < vs.countP (overflows petitK) := by
  have h1 : vs.take (i + 1) = vs.take i ++ [vs[i]] := by simp
  have h2 : (vs.take (i + 1)).countP (overflows petitK) = rankOf petitK vs i + 1 := by
    rw [h1, List.countP_append]
    simp [rankOf, h]
  have h3 : (vs.take (i + 1)).countP (overflows petitK) ≤ vs.countP (overflows petitK) :=
    (List.take_sublist _ _).countP_le
  omega

/-- The table entry of a rank is the value at its position (R157). -/
theorem filter_rankOf (petitK : Nat) (vs : List Word) (i : Nat) (hi : i < vs.length)
    (h : overflows petitK vs[i] = true) : (vs.filter (overflows petitK))[rankOf petitK vs i]? = some vs[i] := by
  induction vs generalizing i with
  | nil => simp at hi
  | cons v vs ih =>
    cases i with
    | zero =>
      simp only [List.getElem_cons_zero] at h
      simp [rankOf, h]
    | succ i =>
      simp only [List.getElem_cons_succ] at h ⊢
      have := ih i (by simpa using hi) h
      by_cases hv : overflows petitK v = true
      · rw [List.filter_cons_of_pos hv]
        simpa [rankOf, hv] using this
      · rw [List.filter_cons_of_neg hv]
        simpa [rankOf, hv] using this

/-- The contents of the overflow occurrences among the first `m` positions, in order, are `0, 1, 2, ...` (R27). -/
theorem filterMap_rankOf (petitK : Nat) (vs : List Word) (m : Nat) (hm : m ≤ vs.length) :
    (List.range m).filterMap (fun i => if overflows petitK (vs.getD i 0) then some (rankOf petitK vs i) else none) =
      List.range (rankOf petitK vs m) := by
  induction m with
  | zero => simp [rankOf]
  | succ m ih =>
    have hlt : m < vs.length := by omega
    have h1 : vs.take (m + 1) = vs.take m ++ [vs[m]] := by simp
    have h2 : rankOf petitK vs (m + 1) = rankOf petitK vs m + if overflows petitK vs[m] then 1 else 0 := by
      unfold rankOf
      rw [h1, List.countP_append]
      congr 1
      by_cases h : overflows petitK vs[m] = true <;> simp [h]
    rw [List.range_succ, List.filterMap_append, ih (by omega), h2]
    by_cases h : overflows petitK vs[m] = true
    · rw [if_pos h, List.range_succ]
      simp [List.getD, hlt, h]
    · rw [if_neg h]
      simp [List.getD, hlt, h]

/-! ### The fields -/

@[simp] theorem length_overflowFields (petitK bitsChamp rank : Nat) (vs : List Word) :
    (overflowFields petitK bitsChamp rank vs).length = vs.length := by
  induction vs generalizing rank with
  | nil => rfl
  | cons v vs ih => unfold overflowFields; split <;> simp [ih]

theorem getElem_overflowFields (petitK bitsChamp rank : Nat) (vs : List Word) (i : Nat) (hi : i < vs.length) :
    (overflowFields petitK bitsChamp rank vs)[i]? =
      some (if overflows petitK vs[i] then encField 1 (rank + rankOf petitK vs i)
        else encField 0 (vs[i] &&& maskLow (bitsChamp - 1)).toNat) := by
  induction vs generalizing rank i with
  | nil => simp at hi
  | cons v vs ih =>
    unfold overflowFields
    by_cases hv : overflows petitK v = true
    · rw [if_pos hv]
      cases i with
      | zero => simp [hv, rankOf]
      | succ i =>
        rw [List.getElem?_cons_succ, ih (rank + 1) i (by simpa using hi)]
        simp only [List.getElem_cons_succ, rankOf, List.take_succ_cons, List.countP_cons_of_pos hv]
        congr 3
        omega
    · rw [if_neg hv]
      cases i with
      | zero => simp [hv]
      | succ i =>
        rw [List.getElem?_cons_succ, ih rank i (by simpa using hi)]
        simp only [List.getElem_cons_succ, rankOf, List.take_succ_cons, List.countP_cons_of_neg hv]

/-! ### What unit O holds after packing -/

/-- The width of unit O's fields is at most 33 (R154). -/
theorem fieldBits_bestWidth_le (vs : List Word) (h : vs.length ≤ 2147483647) :
    fieldBits (widthsOf vs) (bestWidth (widthsOf vs)) ≤ 33 := by
  have h1 := bestWidth_le (widthsOf vs)
  have h2 : lastCandidate (widthsOf vs) ≤ 32 := by
    unfold lastCandidate
    refine max_le (by decide) ?_
    rcases maxOf_mem (widthsOf vs) with hm | hm
    · rw [hm]; omega
    · obtain ⟨w, -, hw⟩ := List.mem_map.mp hm
      rw [← hw]; exact bitsNeeded_word_le w
  have h3 := indexBits_le (le_trans (overflowCountAt_le (widthsOf vs) (bestWidth (widthsOf vs))) (by simpa using h))
  unfold fieldBits
  omega

/-- In the value domain the chosen width is at most VBITS (R154). -/
theorem bestWidth_le_width (p : Params) (vs : List Word) (h : ∀ v ∈ vs, v.toNat < 2 ^ p.width) :
    bestWidth (widthsOf vs) ≤ p.width := by
  refine le_trans (bestWidth_le _) (max_le (by rcases p.width_cases with h | h <;> omega) ?_)
  rcases maxOf_mem (widthsOf vs) with hm | hm
  · rw [hm]; omega
  · obtain ⟨w, hw, he⟩ := List.mem_map.mp hm
    rw [← he]; exact (bitsNeeded_le_iff _ _).mpr (h w hw)

section packO

variable {vs : List Word}

theorem packO_n (h : vs.length ≤ 2147483647) : (packO vs).n.toNat = vs.length := toNat_ofNat_word (by omega)

theorem packO_bitsChamp (h : vs.length ≤ 2147483647) :
    (packO vs).bitsChamp.toNat = fieldBits (widthsOf vs) (bestWidth (widthsOf vs)) :=
  toNat_ofNat_six (fieldBits_bestWidth_le vs h)

theorem packO_petitK (h : vs.length ≤ 2147483647) : (packO vs).petitK.toNat = bestWidth (widthsOf vs) := by
  refine toNat_ofNat_six (le_trans ?_ (fieldBits_bestWidth_le vs h))
  unfold fieldBits; omega

theorem packO_count (h : vs.length ≤ 2147483647) :
    (packO vs).overflowCount.toNat = vs.countP (overflows (bestWidth (widthsOf vs))) := by
  have := overflowCountAt_le (widthsOf vs) (bestWidth (widthsOf vs))
  simp only [length_widthsOf] at this
  rw [← overflowCountAt_widthsOf]
  exact toNat_ofNat_word (by omega)

theorem packO_ovt (vs : List Word) : (packO vs).ovt = vs.filter (overflows (bestWidth (widthsOf vs))) := rfl

theorem packO_length (vs : List Word) : (packO vs).buf.length =
    ceilDiv (vs.length * fieldBits (widthsOf vs) (bestWidth (widthsOf vs))) 32 := by
  simp [packO]

/-- The field of position `i` after packing (R156 step 6, R158). -/
def fieldAt (vs : List Word) (i : Nat) (v : Word) : Nat :=
  if overflows (bestWidth (widthsOf vs)) v then encField 1 (rankOf (bestWidth (widthsOf vs)) vs i)
  else encField 0 v.toNat

/-- Field `i` of unit O after packing: flag 1 and the rank where the value needs more than `petitK` bits, flag 0
and the value elsewhere (R156, R158). -/
theorem field_packO (h : vs.length ≤ 2147483647) (i : Nat) (hi : i < vs.length) :
    (packO vs).field i = some (fieldAt vs i vs[i]) := by
  have h33 := fieldBits_bestWidth_le vs h
  have hfit : (overflowFields (bestWidth (widthsOf vs)) (fieldBits (widthsOf vs) (bestWidth (widthsOf vs))) 0 vs).length *
      fieldBits (widthsOf vs) (bestWidth (widthsOf vs)) ≤
      32 * ceilDiv (vs.length * fieldBits (widthsOf vs) (bestWidth (widthsOf vs))) 32 := by
    rw [length_overflowFields]; exact ceilDiv_mul_ge _ _ (by decide)
  have hr := readField_writeFields _ _ _ i h33 hfit (by simpa using hi)
  unfold OUnit.field
  rw [packO_bitsChamp h]
  refine hr.trans ?_
  have hget := getElem_overflowFields (bestWidth (widthsOf vs)) (fieldBits (widthsOf vs) (bestWidth (widthsOf vs))) 0 vs
    i hi
  rw [List.getElem?_eq_getElem (by simpa using hi)] at hget
  rw [Option.some.inj hget]
  unfold fieldAt
  congr 1
  have hpow : (2:Nat) ^ fieldBits (widthsOf vs) (bestWidth (widthsOf vs)) =
      2 * 2 ^ max (bestWidth (widthsOf vs)) (indexBits (overflowCountAt (widthsOf vs) (bestWidth (widthsOf vs)))) := by
    unfold fieldBits; rw [Nat.pow_add]
  by_cases ho : overflows (bestWidth (widthsOf vs)) vs[i] = true
  · rw [if_pos ho, if_pos ho, Nat.zero_add]
    refine Nat.mod_eq_of_lt ?_
    have h1 := rankOf_lt _ _ _ hi ho
    rw [← overflowCountAt_widthsOf] at h1
    have h2 := lt_of_lt_of_le (lt_pow_indexBits h1) (Nat.pow_le_pow_right (by decide)
      (Nat.le_max_right (bestWidth (widthsOf vs)) _))
    rw [encField_eq _ (by decide), hpow]
    omega
  · rw [if_neg ho, if_neg ho]
    have h1 : bitsNeeded vs[i].toNat ≤ bestWidth (widthsOf vs) := by
      simpa [overflows] using ho
    have h2 := lt_of_lt_of_le ((bitsNeeded_le_iff _ _).mp h1) (Nat.pow_le_pow_right (by decide)
      (Nat.le_max_left (bestWidth (widthsOf vs))
        (indexBits (overflowCountAt (widthsOf vs) (bestWidth (widthsOf vs))))))
    have h3 : (vs[i] &&& maskLow (fieldBits (widthsOf vs) (bestWidth (widthsOf vs)) - 1)).toNat = vs[i].toNat := by
      rw [toNat_and_maskLow]
      refine Nat.mod_eq_of_lt ?_
      rw [show fieldBits (widthsOf vs) (bestWidth (widthsOf vs)) - 1 = max (bestWidth (widthsOf vs))
        (indexBits (overflowCountAt (widthsOf vs) (bestWidth (widthsOf vs)))) by unfold fieldBits; omega]
      exact h2
    rw [h3]
    refine Nat.mod_eq_of_lt ?_
    rw [encField_eq _ (by decide), hpow]
    omega

theorem decField_fieldAt_fst (vs : List Word) (i : Nat) (v : Word) :
    (decField (fieldAt vs i v)).1 = if overflows (bestWidth (widthsOf vs)) v then 1 else 0 := by
  unfold fieldAt
  rw [decField_fst]
  split
  · rw [encField_eq _ (by decide)]; omega
  · rw [encField_eq _ (by decide)]; omega

theorem decField_fieldAt_snd (vs : List Word) (i : Nat) (v : Word) :
    (decField (fieldAt vs i v)).2 =
      if overflows (bestWidth (widthsOf vs)) v then rankOf (bestWidth (widthsOf vs)) vs i else v.toNat := by
  unfold fieldAt
  rw [decField_snd]
  split
  · rw [encField_eq _ (by decide)]; omega
  · rw [encField_eq _ (by decide)]; omega

/-- Element `i` of unit O after packing is the source value (R162). -/
theorem element_packO (h : vs.length ≤ 2147483647) (i : Nat) (hi : i < vs.length) :
    (packO vs).element i = some vs[i] := by
  have hf := field_packO h i hi
  unfold OUnit.field at hf
  unfold OUnit.element
  rw [hf]
  simp only [Option.bind_some, OUnit.valueOf, decField_fieldAt_fst, decField_fieldAt_snd]
  by_cases ho : overflows (bestWidth (widthsOf vs)) vs[i] = true
  · simp only [if_pos ho, OUnit.entry, packO_ovt, filter_rankOf _ _ _ hi ho]
    simp
  · simp [if_neg ho]

/-- Packing establishes the invariants of unit O (R27). -/
theorem packO_inv (p : Params) (vs : List Word) (hn : vs.length ≤ p.nmax) (hv : ∀ v ∈ vs, v.toNat < 2 ^ p.width) :
    (packO vs).Inv p := by
  have h : vs.length ≤ 2147483647 := le_trans hn p.nmax_le
  have hcount := packO_count h
  have hfit : (overflowFields (bestWidth (widthsOf vs)) (fieldBits (widthsOf vs) (bestWidth (widthsOf vs))) 0 vs).length *
      fieldBits (widthsOf vs) (bestWidth (widthsOf vs)) ≤
      32 * ceilDiv (vs.length * fieldBits (widthsOf vs) (bestWidth (widthsOf vs))) 32 := by
    rw [length_overflowFields]; exact ceilDiv_mul_ge _ _ (by decide)
  constructor
  · rwa [packO_n h]
  · rw [packO_n h, hcount]; exact List.countP_le_length
  · rw [packO_petitK h]; exact bestWidth_le_width p vs hv
  · rw [packO_bitsChamp h, packO_petitK h, hcount, ← overflowCountAt_widthsOf]; rfl
  · rw [packO_n h, packO_bitsChamp h, packO_length]
  · intro q hq
    rw [packO_n h, packO_bitsChamp h] at hq
    exact bufBit_writeFields_tail _ _ _ _ (fieldBits_bestWidth_le vs h) hfit (by rwa [length_overflowFields])
  · have hr := filterMap_rankOf (bestWidth (widthsOf vs)) vs vs.length le_rfl
    rw [show rankOf (bestWidth (widthsOf vs)) vs vs.length = (packO vs).overflowCount.toNat by
      rw [hcount, rankOf, List.take_length]] at hr
    rw [← hr, OUnit.flaggedContents, packO_n h]
    refine List.filterMap_congr fun i hi => ?_
    have hi' : i < vs.length := List.mem_range.mp hi
    unfold OUnit.flaggedContent
    rw [field_packO h i hi']
    simp only [decField_fieldAt_fst, decField_fieldAt_snd, List.getD, List.getElem?_eq_getElem hi', Option.getD_some]
    by_cases ho : overflows (bestWidth (widthsOf vs)) vs[i] = true <;> simp [ho]
  · intro i f hi hf h0
    rw [packO_n h] at hi
    rw [field_packO h i hi] at hf
    cases hf
    rw [decField_fieldAt_fst] at h0
    have ho : ¬ overflows (bestWidth (widthsOf vs)) vs[i] = true := by
      intro ho; simp [ho] at h0
    rw [decField_fieldAt_snd, if_neg ho, packO_petitK h]
    simpa [overflows] using ho
  · rw [packO_ovt, hcount, List.countP_eq_length_filter]
  · intro w hw
    rw [packO_ovt] at hw
    rw [packO_petitK h]
    simpa [overflows] using (List.mem_filter.mp hw).2

end packO

theorem reset_invO (p : Params) : OUnit.reset.Inv p := packO_inv p [] (Nat.zero_le _) (by simp)

/-- In every state the invariants admit, field `i` of unit O exists (R59). -/
theorem OUnit.Inv.field_eq {p : Params} {u : OUnit} (h : u.Inv p) {i : Nat} (hi : i < u.n.toNat) :
    ∃ f, u.field i = some f ∧ f < 2 ^ u.bitsChamp.toNat ∧ u.bitsChamp.toNat ≤ 33 := by
  have hb : u.bitsChamp.toNat ≤ 33 := by
    have h1 := h.petitK_le
    have h2 := indexBits_le (le_trans h.count_le (le_trans h.n_le p.nmax_le))
    rw [h.bitsChamp_eq]
    rcases p.width_cases with hw | hw <;> omega
  have hmul : (i + 1) * u.bitsChamp.toNat ≤ u.n.toNat * u.bitsChamp.toNat := Nat.mul_le_mul_right _ hi
  have hlen := ceilDiv_mul_ge (u.n.toNat * u.bitsChamp.toNat) 32 (by decide)
  have e : (i + 1) * u.bitsChamp.toNat = i * u.bitsChamp.toNat + u.bitsChamp.toNat := by ring
  obtain ⟨f, hf⟩ := readField_isSome u.buf (i * u.bitsChamp.toNat) u.bitsChamp.toNat hb (by rw [h.len]; omega)
  exact ⟨f, hf, readField_lt _ _ _ _ hf, hb⟩

/-- In every state the invariants admit, a flagged content is a table index (R27, R59). -/
theorem OUnit.Inv.flagged_lt {p : Params} {u : OUnit} (h : u.Inv p) {i f : Nat} (hi : i < u.n.toNat)
    (hf : u.field i = some f) (h1 : (decField f).1 = 1) : (decField f).2 < u.ovt.length := by
  have hm : (decField f).2 ∈ u.flaggedContents := by
    refine List.mem_filterMap.mpr ⟨i, List.mem_range.mpr hi, ?_⟩
    unfold OUnit.flaggedContent
    rw [hf]
    simp [h1]
  rw [h.flagged, List.mem_range] at hm
  rwa [h.ovt_len]

/-- In every state the invariants admit, an element of unit O exists: an unflagged content fits RESULT, a flagged
one is in the table (R159). -/
theorem OUnit.Inv.element_eq {p : Params} {u : OUnit} (h : u.Inv p) {i : Nat} (hi : i < u.n.toNat) :
    ∃ f w, u.field i = some f ∧ u.element i = some w ∧
      ((decField f).1 = 0 ∧ (decField f).2 = w.toNat ∨ (decField f).1 = 1 ∧ u.ovt[(decField f).2]? = some w) := by
  obtain ⟨f, hf, hlt, hb⟩ := h.field_eq hi
  have hel : u.element i = u.valueOf f := by
    unfold OUnit.element
    unfold OUnit.field at hf
    rw [hf]; rfl
  rcases Nat.mod_two_eq_zero_or_one f with h0 | h1
  · have hc : (decField f).2 < 2 ^ 32 := by
      rw [decField_snd]
      have : (2:Nat) ^ u.bitsChamp.toNat ≤ 2 ^ 33 := Nat.pow_le_pow_right (by decide) hb
      omega
    refine ⟨f, BitVec.ofNat 32 (decField f).2, hf, ?_, Or.inl ⟨h0, (toNat_ofNat_word hc).symm⟩⟩
    rw [hel, OUnit.valueOf, if_pos (show (decField f).1 = 0 from h0), resultWord_of_lt hc]
  · have hc := h.flagged_lt hi hf h1
    have hget := List.getElem?_eq_getElem hc
    refine ⟨f, u.ovt[(decField f).2], hf, ?_, Or.inr ⟨h1, hget⟩⟩
    rw [hel, OUnit.valueOf, if_neg (by rw [decField_fst]; omega), OUnit.entry, hget]
    rfl

end Sys2Proof.Machine
end

