-- ==== Sys2Proof/Laws/State.lean ====
section
/-! SUPPORT. The fields of a state after each named update, so that no proof unfolds one. -/

namespace Sys2Proof.Machine

@[simp] theorem State.reply_params (s : State) (v : Word) : (s.reply v).params = s.params := rfl
@[simp] theorem State.reply_unitX (s : State) (v : Word) : (s.reply v).unitX = s.unitX := rfl
@[simp] theorem State.reply_unitN (s : State) (v : Word) : (s.reply v).unitN = s.unitN := rfl
@[simp] theorem State.reply_unitO (s : State) (v : Word) : (s.reply v).unitO = s.unitO := rfl
@[simp] theorem State.reply_src (s : State) (v : Word) : (s.reply v).src = s.src := rfl
@[simp] theorem State.reply_dst (s : State) (v : Word) : (s.reply v).dst = s.dst := rfl
@[simp] theorem State.reply_response (s : State) (v : Word) : (s.reply v).response = some { status := .ok, result := v } := rfl
@[simp] theorem State.reply_host (s : State) (v : Word) : (s.reply v).host = s.host := rfl

@[simp] theorem State.raise_params (s : State) (e : Status) : (s.raise e).params = s.params := rfl
@[simp] theorem State.raise_unitX (s : State) (e : Status) : (s.raise e).unitX = s.unitX := rfl
@[simp] theorem State.raise_unitN (s : State) (e : Status) : (s.raise e).unitN = s.unitN := rfl
@[simp] theorem State.raise_unitO (s : State) (e : Status) : (s.raise e).unitO = s.unitO := rfl
@[simp] theorem State.raise_src (s : State) (e : Status) : (s.raise e).src = s.src := rfl
@[simp] theorem State.raise_dst (s : State) (e : Status) : (s.raise e).dst = s.dst := rfl
@[simp] theorem State.raise_response (s : State) (e : Status) : (s.raise e).response = some { status := e, result := 0 } := rfl
@[simp] theorem State.raise_host (s : State) (e : Status) : (s.raise e).host = s.host := rfl

@[simp] theorem State.present_params (s : State) (cmd arg : Word) : (s.present cmd arg).params = s.params := rfl
@[simp] theorem State.present_unitX (s : State) (cmd arg : Word) : (s.present cmd arg).unitX = s.unitX := rfl
@[simp] theorem State.present_unitN (s : State) (cmd arg : Word) : (s.present cmd arg).unitN = s.unitN := rfl
@[simp] theorem State.present_unitO (s : State) (cmd arg : Word) : (s.present cmd arg).unitO = s.unitO := rfl
@[simp] theorem State.present_src (s : State) (cmd arg : Word) : (s.present cmd arg).src = s.src := rfl
@[simp] theorem State.present_dst (s : State) (cmd arg : Word) : (s.present cmd arg).dst = s.dst := rfl
@[simp] theorem State.present_response (s : State) (cmd arg : Word) : (s.present cmd arg).response = s.response := rfl
@[simp] theorem State.present_host (s : State) (cmd arg : Word) : (s.present cmd arg).host = .issue cmd arg :: s.host := rfl

@[simp] theorem State.powerOn_params (s : State) : s.powerOn.params = s.params := rfl
@[simp] theorem State.powerOn_unitX (s : State) : s.powerOn.unitX = XUnit.reset := rfl
@[simp] theorem State.powerOn_unitN (s : State) : s.powerOn.unitN = NUnit.reset := rfl
@[simp] theorem State.powerOn_unitO (s : State) : s.powerOn.unitO = OUnit.reset := rfl
@[simp] theorem State.powerOn_src (s : State) : s.powerOn.src = s.src := rfl
@[simp] theorem State.powerOn_dst (s : State) : s.powerOn.dst = s.dst := rfl
@[simp] theorem State.powerOn_response (s : State) : s.powerOn.response = none := rfl
@[simp] theorem State.powerOn_host (s : State) : s.powerOn.host = s.host := rfl

/-- Reading SRC depends on SRC alone. -/
theorem State.readSrc_congr {s t : State} (h : s.src = t.src) : s.readSrc = t.readSrc := by
  funext j
  simp only [State.readSrc, h]

@[simp] theorem State.readSrc_reply (s : State) (v : Word) : (s.reply v).readSrc = s.readSrc := rfl
@[simp] theorem State.readSrc_raise (s : State) (e : Status) : (s.raise e).readSrc = s.readSrc := rfl

/-- A successful response tells a reply from an error. -/
theorem State.reply_ne_raise (s t : State) (v : Word) (e : Status) (h : e ≠ .ok) : s.reply v ≠ t.raise e := by
  intro heq
  have := congrArg State.response heq
  simp only [State.reply_response, State.raise_response, Option.some.injEq, Response.mk.injEq] at this
  exact h this.1.symm

end Sys2Proof.Machine
end

