-- ==== Sys2Proof/Laws/Exec.lean ====
section
/-! SUPPORT. What a command can do, said once: it raises an error, replies with a value, fills DST, or replaces the
packed state of its unit by that of an accepted sequence (R21, R52, R182, R195). Every frame and every invariant is
read off `exec_next_cases`, and `step_cases` says the same of a step. -/

namespace Sys2Proof.Machine

/-- An accepted sequence has at most NMAX elements, all in the domain. -/
theorem State.accepts_source {s : State} {n : Nat} (h : s.accepts n = true) :
    (s.source n).length ≤ s.params.nmax ∧ ∀ v ∈ s.source n, v.toNat < 2 ^ s.params.width := by
  obtain ⟨h1, h2⟩ := (s.accepts_iff n).mp h
  refine ⟨by simpa using h1, fun v hv => ?_⟩
  obtain ⟨j, hj, rfl⟩ := List.mem_map.mp hv
  exact h2 j (List.mem_range.mp hj)

/-- Everything a command that answers a next state can have done. -/
theorem exec_next_cases {i : Instr} {s t : State} (h : exec i s = .next t) :
    (∃ e, (e = .invalidArgument ∧ invalidCause s i ∨ e = .indexOutOfBounds ∧ indexCause s i) ∧ t = s.raise e) ∨
    (∃ v, writesUnit i = false ∧ writesDst i = false ∧ t = s.reply v) ∨
    (∃ ws, writesDst i = true ∧ t = ({ s with dst := s.dst.writeAll 0 ws } : State).reply 0) ∨
    (unitOf i = .x ∧ writesUnit i = true ∧ ∃ u : XUnit, u.Inv s.params ∧ t = ({ s with unitX := u } : State).reply 0) ∨
    (unitOf i = .n ∧ writesUnit i = true ∧ ∃ u : NUnit, u.Inv s.params ∧ t = ({ s with unitN := u } : State).reply 0) ∨
    (unitOf i = .o ∧ writesUnit i = true ∧ ∃ u : OUnit, u.Inv s.params ∧ t = ({ s with unitO := u } : State).reply 0) := by
  have hrej : ∀ n, s.accepts n = false →
      s.params.nmax < n ∨ ∃ j, j < n ∧ 2 ^ s.params.width ≤ (s.readSrc j).toNat := by
    intro n hn
    by_contra hc
    rw [not_or, not_exists] at hc
    have := (s.accepts_iff n).mpr ⟨by omega, fun j hj => by
      have h2 := hc.2 j
      rw [not_and] at h2
      have h3 := h2 hj
      omega⟩
    rw [hn] at this
    cases this
  have hget : ∀ (n : Word) (element : Nat → Option Word) (k : Int), getElement n element k s = .next t →
      ((k < 0 ∨ (n.toNat : Int) ≤ k) ∧ t = s.raise .indexOutOfBounds) ∨ ∃ v, t = s.reply v := by
    intro n element k hk
    rcases getElement_cases n element k s with ⟨h1, h2⟩ | ⟨j, -, -, h2⟩
    · left; rw [h2] at hk; cases hk; exact ⟨h1, rfl⟩
    · right
      rw [h2] at hk
      rcases s.answer_cases (element j) with ⟨w, -, h3⟩ | ⟨-, h3⟩
      · rw [h3] at hk; cases hk; exact ⟨w, rfl⟩
      · rw [h3] at hk; cases hk
  have hfill : ∀ (n : Word) (element : Nat → Option Word) (dlen : Nat), fillDestination n element dlen s = .next t →
      (dlen ≠ n.toNat ∧ t = s.raise .invalidArgument) ∨
        ∃ ws, t = ({ s with dst := s.dst.writeAll 0 ws } : State).reply 0 := by
    intro n element dlen hk
    rcases fillDestination_cases n element dlen s with ⟨h1, h2⟩ | ⟨-, ws, -, h2⟩ | ⟨-, -, h2⟩
    · left; rw [h2] at hk; cases hk; exact ⟨h1, rfl⟩
    · right; rw [h2] at hk; cases hk; exact ⟨ws, rfl⟩
    · rw [h2] at hk; cases hk
  cases i with
  | bitsNeeded v =>
    simp only [exec, execBitsNeeded] at h
    split at h
    · cases h; right; left; exact ⟨_, rfl, rfl, rfl⟩
    · rename_i hd
      cases h; left
      refine ⟨_, Or.inl ⟨rfl, ?_⟩, rfl⟩
      have := (inDomain_iff s.params v).not.mp hd
      exact Nat.le_of_not_lt this
  | maskLow k => cases h; right; left; exact ⟨_, rfl, rfl, rfl⟩
  | createX arg => cases h; right; right; right; left; exact ⟨rfl, rfl, _, reset_invX _, rfl⟩
  | createN arg => cases h; right; right; right; right; left; exact ⟨rfl, rfl, _, reset_invN _, rfl⟩
  | createO arg => cases h; right; right; right; right; right; exact ⟨rfl, rfl, _, reset_invO _, rfl⟩
  | compressX n =>
    simp only [exec, execCompressX] at h
    rcases compressInto_cases (fun s vs => { s with unitX := packX vs }) n s with ⟨ha, he⟩ | ⟨ha, he⟩
    · rw [he] at h; cases h
      obtain ⟨h1, h2⟩ := State.accepts_source ha
      right; right; right; left; exact ⟨rfl, rfl, _, packX_inv _ _ h1 h2, rfl⟩
    · rw [he] at h; cases h
      left; exact ⟨_, Or.inl ⟨rfl, hrej n ha⟩, rfl⟩
  | compressN n =>
    simp only [exec, execCompressN] at h
    rcases compressInto_cases (fun s vs => { s with unitN := packN vs }) n s with ⟨ha, he⟩ | ⟨ha, he⟩
    · rw [he] at h; cases h
      obtain ⟨h1, h2⟩ := State.accepts_source ha
      right; right; right; right; left; exact ⟨rfl, rfl, _, packN_inv _ _ h1 h2, rfl⟩
    · rw [he] at h; cases h
      left; exact ⟨_, Or.inl ⟨rfl, hrej n ha⟩, rfl⟩
  | compressO n =>
    simp only [exec, execCompressO] at h
    rcases compressInto_cases (fun s vs => { s with unitO := packO vs }) n s with ⟨ha, he⟩ | ⟨ha, he⟩
    · rw [he] at h; cases h
      obtain ⟨h1, h2⟩ := State.accepts_source ha
      right; right; right; right; right; exact ⟨rfl, rfl, _, packO_inv _ _ h1 h2, rfl⟩
    · rw [he] at h; cases h
      left; exact ⟨_, Or.inl ⟨rfl, hrej n ha⟩, rfl⟩
  | getX k | getN k | getO k =>
    rcases hget _ _ _ h with ⟨h1, h2⟩ | ⟨v, h2⟩
    · left; exact ⟨_, Or.inr ⟨rfl, h1⟩, h2⟩
    · right; left; exact ⟨v, rfl, rfl, h2⟩
  | decompressX dlen | decompressN dlen | decompressO dlen =>
    rcases hfill _ _ _ h with ⟨h1, h2⟩ | ⟨ws, h2⟩
    · left; exact ⟨_, Or.inl ⟨rfl, h1⟩, h2⟩
    · right; right; left; exact ⟨ws, rfl, h2⟩
  | lengthX arg | lengthN arg | lengthO arg => cases h; right; left; exact ⟨_, rfl, rfl, rfl⟩

/-- Everything a step can do: nothing, a write of a host-owned space that keeps its canonical form, a power-on reset, an
IllegalCommand response, or a command's meaning (R10, R79, R210; log 4, log 23). -/
theorem step_cases (s : State) :
    step s = .next s ∨
    (∃ m rest, step s = .next { s with src := m, host := rest } ∧ (s.src.wf = true → m.wf = true)) ∨
    (∃ m rest, step s = .next { s with dst := m, host := rest } ∧ (s.dst.wf = true → m.wf = true)) ∨
    (∃ rest, step s = .next ({ s with host := rest } : State).powerOn) ∨
    (∃ rest, step s = .next (({ s with host := rest } : State).raise .illegalCommand)) ∨
    ∃ i rest, step s = exec i { s with host := rest } := by
  rcases h : s.host with _ | ⟨move, rest⟩
  · exact .inl (by simp only [step, State.fetch, h])
  cases move with
  | writeSrc j v =>
    exact .inr (.inl ⟨s.src.write j v, rest, by simp only [step, State.fetch, h], Memory.wf_write _ _ _⟩)
  | writeDst j v =>
    exact .inr (.inr (.inl ⟨s.dst.write j v, rest, by simp only [step, State.fetch, h], Memory.wf_write _ _ _⟩))
  | powerOn => exact .inr (.inr (.inr (.inl ⟨rest, by simp only [step, State.fetch, h]⟩)))
  | issue cmd arg =>
    cases hd : decode cmd arg with
    | ok i =>
      exact .inr (.inr (.inr (.inr (.inr ⟨i, rest, by simp only [step, State.fetch, h, State.receive, hd]⟩))))
    | error e =>
      exact .inr (.inr (.inr (.inr (.inl ⟨rest, by simp only [step, State.fetch, h, State.receive, hd]⟩))))

end Sys2Proof.Machine
end

