-- ==== Sys2Proof/Laws/PerInstr.lean ====
section
/-! SUPPORT. Statements about every command as syntax, one lemma per constructor. -/

namespace Sys2Proof.Laws.CmdFields

/-- The CMD word of a command has `zero = 0` and a reserved value in neither `unit` nor `op` (R71, R79): its `op` is
at most 1 for unit U and at most 4 for a packer unit. -/
def Statement (i : Instr) : Prop :=
  zeroField (encode i).1 = 0 ∧
    (unitField (encode i).1 = 0 ∧ opField (encode i).1 ≤ 1 ∨ unitField (encode i).1 ≠ 0 ∧ opField (encode i).1 ≤ 4)

/-- The fields of a CMD word made from a unit and an op that R73 lists. -/
theorem fields_of_commandWord (unit op : Nat)
    (h : unit ≤ 3 ∧ op ≤ 4 ∧ (unit = 0 → op ≤ 1)) :
    zeroField (commandWord unit op) = 0 ∧ (unitField (commandWord unit op) = 0 ∧ opField (commandWord unit op) ≤ 1 ∨
      unitField (commandWord unit op) ≠ 0 ∧ opField (commandWord unit op) ≤ 4) := by
  simp only [zeroField, unitField, opField, commandWord, BitVec.toNat_ofNat]
  rw [Nat.mod_eq_of_lt (by omega)]
  omega

theorem bitsNeeded (v : Nat) : Statement (.bitsNeeded v) := fields_of_commandWord 0 0 (by decide)
theorem maskLow (k : Nat) : Statement (.maskLow k) := fields_of_commandWord 0 1 (by decide)
theorem createX (arg : Word) : Statement (.createX arg) := fields_of_commandWord 1 0 (by decide)
theorem compressX (n : Nat) : Statement (.compressX n) := fields_of_commandWord 1 1 (by decide)
theorem getX (i : Int) : Statement (.getX i) := fields_of_commandWord 1 2 (by decide)
theorem decompressX (dlen : Nat) : Statement (.decompressX dlen) := fields_of_commandWord 1 3 (by decide)
theorem lengthX (arg : Word) : Statement (.lengthX arg) := fields_of_commandWord 1 4 (by decide)
theorem createN (arg : Word) : Statement (.createN arg) := fields_of_commandWord 2 0 (by decide)
theorem compressN (n : Nat) : Statement (.compressN n) := fields_of_commandWord 2 1 (by decide)
theorem getN (i : Int) : Statement (.getN i) := fields_of_commandWord 2 2 (by decide)
theorem decompressN (dlen : Nat) : Statement (.decompressN dlen) := fields_of_commandWord 2 3 (by decide)
theorem lengthN (arg : Word) : Statement (.lengthN arg) := fields_of_commandWord 2 4 (by decide)
theorem createO (arg : Word) : Statement (.createO arg) := fields_of_commandWord 3 0 (by decide)
theorem compressO (n : Nat) : Statement (.compressO n) := fields_of_commandWord 3 1 (by decide)
theorem getO (i : Int) : Statement (.getO i) := fields_of_commandWord 3 2 (by decide)
theorem decompressO (dlen : Nat) : Statement (.decompressO dlen) := fields_of_commandWord 3 3 (by decide)
theorem lengthO (arg : Word) : Statement (.lengthO arg) := fields_of_commandWord 3 4 (by decide)

end Sys2Proof.Laws.CmdFields
end

