-- ==== Sys2Proof/Tests/Slice0.lean ====
section
/-! SUPPORT. The model's own tests, each about one function or one step, with the expected value taken from the spec
(the source is named at each group), and for every obligation that has hypotheses a witness that meets them. -/

namespace Sys2Proof.Tests

open Sys2Proof.Machine

/-! ### Builders -/

/-- Consecutive words of a space from an index on. -/
def cells : Nat → List Word → Memory
  | _, [] => []
  | j, v :: vs => (j, v) :: cells (j + 1) vs

/-- Parameters with NMAX = 99. -/
def params (v : VBits) : Params := { vbits := v, nmaxPred := 98 }

/-- The reset state of an instance with VBITS given and NMAX = 99, and `SRC[0 ..]` holding a sequence. -/
def holding (v : VBits) (vs : List Word) : State := { State.reset with params := params v, src := cells 0 vs }

/-- The same with all three units holding the sequence. -/
def packed (v : VBits) (vs : List Word) : State :=
  { holding v vs with unitX := packX vs, unitN := packN vs, unitO := packO vs }

/-- The next state, if there is one. -/
def after (i : Instr) (s : State) : Option State :=
  match exec i s with
  | .next t => some t
  | .fault _ => none
  | .refused _ => none

theorem exec_of_after {i : Instr} {s t : State} (h : after i s = some t) : exec i s = .next t := by
  unfold after at h
  split at h
  · rename_i heq
    cases h
    exact heq
  · cases h
  · cases h

theorem exec_next_of_after {i : Instr} {s : State} {P : State → Prop} (h : ∃ t ∈ after i s, P t) :
    ∃ t, exec i s = .next t ∧ P t := h.elim fun t ht => ⟨t, exec_of_after ht.1, ht.2⟩

theorem exec_next_of_isSome {i : Instr} {s : State} (h : (after i s).isSome = true) : ∃ t, exec i s = .next t :=
  (Option.isSome_iff_exists.mp h).elim fun t ht => ⟨t, exec_of_after ht⟩

/-- The response to a command. -/
def answer (i : Instr) (s : State) : Option Response := (after i s).bind State.response

/-- A step's next state, if there is one. -/
def stepped (s : State) : Option State :=
  match step s with
  | .next t => some t
  | .fault _ => none
  | .refused _ => none

/-! ### WellFormed: one ill-formed term for each check (30_encoding R74) -/

theorem test_wf_zext_too_wide : (Instr.compressX 4294967296).wellFormed = false := by decide
theorem test_wf_zext_bits : (Instr.bitsNeeded 4294967296).wellFormed = false := by decide
theorem test_wf_zext_mask : (Instr.maskLow 4294967296).wellFormed = false := by decide
theorem test_wf_zext_dlen : (Instr.decompressO 4294967296).wellFormed = false := by decide
theorem test_wf_sext_too_high : (Instr.getX 2147483648).wellFormed = false := by decide
theorem test_wf_sext_too_low : (Instr.getO (-2147483649)).wellFormed = false := by decide
theorem test_wf_edges : (Instr.compressN 4294967295).wellFormed = true ∧ (Instr.getN 2147483647).wellFormed = true ∧
    (Instr.getN (-2147483648)).wellFormed = true ∧ (Instr.lengthX 0xFFFFFFFF).wellFormed = true := by decide

/-! ### Decoding: every constructor by a word written out bit by bit from R71 to R73 and R78 (zero:26, unit:2, op:4) -/

theorem test_decode_bitsNeeded :
    decode 0b00000000000000000000000000_00_0000 100000 = .ok (.bitsNeeded 100000) := by decide
theorem test_decode_maskLow : decode 0b00000000000000000000000000_00_0001 17 = .ok (.maskLow 17) := by decide
theorem test_decode_createX :
    decode 0b00000000000000000000000000_01_0000 0x12345678 = .ok (.createX 0x12345678) := by decide
theorem test_decode_compressX : decode 0b00000000000000000000000000_01_0001 13 = .ok (.compressX 13) := by decide
theorem test_decode_getX : decode 0b00000000000000000000000000_01_0010 0xFFFFFFFF = .ok (.getX (-1)) := by decide
theorem test_decode_decompressX :
    decode 0b00000000000000000000000000_01_0011 0xFFFFFFFF = .ok (.decompressX 4294967295) := by decide
theorem test_decode_lengthX : decode 0b00000000000000000000000000_01_0100 0 = .ok (.lengthX 0) := by decide
theorem test_decode_createN : decode 0b00000000000000000000000000_10_0000 0 = .ok (.createN 0) := by decide
theorem test_decode_compressN :
    decode 0b00000000000000000000000000_10_0001 0x80000000 = .ok (.compressN 2147483648) := by decide
theorem test_decode_getN : decode 0b00000000000000000000000000_10_0010 9 = .ok (.getN 9) := by decide
theorem test_decode_decompressN : decode 0b00000000000000000000000000_10_0011 1 = .ok (.decompressN 1) := by decide
theorem test_decode_lengthN : decode 0b00000000000000000000000000_10_0100 0 = .ok (.lengthN 0) := by decide
theorem test_decode_createO : decode 0b00000000000000000000000000_11_0000 0 = .ok (.createO 0) := by decide
theorem test_decode_compressO : decode 0b00000000000000000000000000_11_0001 24 = .ok (.compressO 24) := by decide
theorem test_decode_getO :
    decode 0b00000000000000000000000000_11_0010 0x80000000 = .ok (.getO (-2147483648)) := by decide
theorem test_decode_decompressO : decode 0b00000000000000000000000000_11_0011 24 = .ok (.decompressO 24) := by decide
theorem test_decode_lengthO :
    decode 0b00000000000000000000000000_11_0100 0xFFFFFFFF = .ok (.lengthO 0xFFFFFFFF) := by decide

/-- The encoder against the words of R78. -/
theorem test_encode : encode (.decompressX 13) = (0x00000013, 13) ∧ encode (.getO (-1)) = (0x00000032, 0xFFFFFFFF) ∧
    encode (.lengthN 7) = (0x00000024, 7) ∧ encode (.maskLow 32) = (0x00000001, 32) := by decide

/-- R79 and the rows of V-E: what each illegal word is refused as. -/
theorem test_decode_illegal : decode 0x00000002 0 = .error .reservedUtilityOp ∧
    decode 0x0000000F 0 = .error .reservedUtilityOp ∧ decode 0x00000015 0 = .error .reservedPackerOp ∧
    decode 0x0000002F 0 = .error .reservedPackerOp ∧ decode 0x00000035 0 = .error .reservedPackerOp ∧
    decode 0x00000040 0 = .error .zeroField ∧ decode 0x80000011 0 = .error .zeroField ∧
    decode 0xFFFFFFFF 0 = .error .zeroField := by decide

/-- R75. -/
theorem test_status_codes : Status.code .ok = 0 ∧ Status.code .invalidArgument = 1 ∧
    Status.code .indexOutOfBounds = 2 ∧ Status.code .illegalCommand = 3 := by decide

/-- The host's hooks on rows of the opcode table. -/
theorem test_table_words : decodeTableWord 32 0x00 = some (.bitsNeeded 0) ∧
    decodeTableWord 32 0x34 = some (.lengthO 0) ∧
    decodeTableWord 32 0x05 = none ∧ decodeTableWord 64 0x000000030000_0011 = some (.compressX 3) := by decide
theorem test_step_from_reset : (stepped (State.reset.withFetchWord 32 0x31)).bind State.response =
    some { status := .ok, result := 0 } := by decide
theorem test_step_get_from_reset : (stepped (State.reset.withFetchWord 32 0x12)).bind State.response =
    some { status := .indexOutOfBounds, result := 0 } := by decide

/-- R210, R211: a power-on reset discards the sequences and the response and keeps SRC and DST. -/
theorem test_powerOn : stepped { holding .b31 [5] with
      unitX := { n := 1, k := 3, buf := [5] }
      dst := [(0, 9)]
      response := some { status := .ok, result := 5 }
      host := [.powerOn] } = some { holding .b31 [5] with dst := [(0, 9)] } ∧
    State.reset.powerOn = State.reset := ⟨by decide, rfl⟩

/-- R82: what a line sets and issues. -/
theorem test_assemble : (AsmLine.compress .nocross [5, 6]).moves =
    [.writeSrc 0 5, .writeSrc 1 6, .issue 0x00000021 2] ∧
    (AsmLine.get .cross (-1)).moves = [.issue 0x00000012 0xFFFFFFFF] ∧
    (AsmLine.create .overflow).moves = [.issue 0x00000030 0] := by decide

/-! ### Unit U: the table V-U -/

theorem test_bitsNeeded : [0, 1, 2, 3, 4, 7, 8, 255, 256, 65535, 65536, 100000, 1000000, 0x7FFFFFFF, 0xFFFFFFFF].map
    bitsNeeded = [0, 1, 2, 2, 3, 3, 4, 8, 9, 16, 17, 17, 20, 31, 32] := by decide
theorem test_maskLow : [0, 1, 2, 5, 16, 17, 31, 32, 33, 64, 0xFFFFFFFF].map maskLow =
    [0, 1, 3, 0x1F, 0xFFFF, 0x1FFFF, 0x7FFFFFFF, 0xFFFFFFFF, 0xFFFFFFFF, 0xFFFFFFFF, 0xFFFFFFFF] := by decide
theorem test_bitsNeeded_command : answer (.bitsNeeded 0x80000000) (holding .b31 []) =
      some { status := .invalidArgument, result := 0 } ∧
    answer (.bitsNeeded 0x80000000) (holding .b32 []) = some { status := .ok, result := 32 } := by decide
theorem test_maskLow_command : answer (.maskLow 17) (holding .b31 []) =
    some { status := .ok, result := 0x0001FFFF } := by decide

/-! ### Field access: R112 and the table V-F -/

theorem test_writeField_fits : writeField [0, 0] 30 2 3 = [0xC0000000, 0] ∧ writeField [0, 0] 0 2 3 = [3, 0] ∧
    writeField [0, 0] 27 5 27 = [0xD8000000, 0] ∧ writeField [0, 0] 0 32 0xFFFFFFFE = [0xFFFFFFFE, 0] := by decide
theorem test_writeField_split : writeField [0, 0] 30 3 5 = [0x40000000, 1] ∧
    writeField [0, 0] 17 17 0x1ABCD = [0x579A0000, 3] ∧ writeField [0, 0] 0 33 0x100000005 = [5, 1] ∧
    writeField [0, 0] 28 5 27 = [0xB0000000, 1] ∧ writeField [0, 0] 1 32 0xFFFFFFFE = [0xFFFFFFFC, 1] ∧
    writeField [0, 0] 31 33 0x1FFFFFFFF = [0x80000000, 0xFFFFFFFF] ∧
    writeField [0, 0, 0] 33 33 0x100000000 = [0, 0, 2] := by decide
theorem test_writeField_masks : writeField [0, 0] 4 3 0xFF = [0x70, 0] ∧ writeField [] 0 0 5 = [] := by decide
theorem test_readField : readField [0x40000000, 1] 30 3 = some 5 ∧ readField [0x579A0000, 3] 17 17 = some 0x1ABCD ∧
    readField [0xFFFFFFFF, 0xFFFFFFFF] 31 33 = some (2 ^ 33 - 1) ∧ readField [] 0 0 = some 0 ∧
    readField [0xEC047E25, 0xB1B3C90F] 30 5 = some 31 ∧ readField [0xEC047E25, 0xB1B3C90F, 1] 60 5 = some 27 ∧
    readField [0x844F408E, 0x4CA0CA55, 0x000000C1] 63 3 = some 2 ∧
    readField [0xFFFFFFFE, 1, 2] 0 33 = some 0x1FFFFFFFE ∧ readField [0xFFFFFFFE, 1, 2] 33 33 = some 0x100000000 := by
  decide
/-- V-O, its first lines. -/
theorem test_flag_codec : encField 1 2 = 5 ∧ encField 0 3 = 6 ∧ encField 1 0x7FFFFFFE = 0xFFFFFFFD ∧
    encField 0 0xFFFFFFFF = 0x1FFFFFFFE ∧ decField 6 = (0, 3) ∧ decField 5 = (1, 2) ∧
    decField 0x1FFFFFFFE = (0, 0xFFFFFFFF) := by decide
/-- R137: `fieldsPerWord(k)` for `k = 0 .. 32`. -/
theorem test_fieldsPerWord : (List.range 33).map fieldsPerWord =
    [1, 32, 16, 10, 8, 6, 5, 4, 4, 3, 3, 2, 2, 2, 2, 2, 2, 1, 1, 1, 1, 1, 1, 1, 1, 1, 1, 1, 1, 1, 1, 1, 1] := by decide

/-! ### Unit X: V-X -/

/-- V-X11: field 10 straddles bits 30 to 32. -/
theorem test_compressX : (after (.compressX 11) (holding .b31 [5, 6, 7, 1, 2, 3, 4, 5, 6, 7, 0])).map State.unitX =
    some { n := 11, k := 3, buf := [0x3EB1A3F5, 0] } := by decide +kernel
/-- V-X18. -/
theorem test_compressX_32 : (after (.compressX 2) (holding .b32 [1, 0x80000000])).map State.unitX =
    some { n := 2, k := 32, buf := [1, 0x80000000] } := by decide +kernel
/-- P1: the buffer of its step 3, read at a split field (steps 7, 9). -/
def unitP1 : State := { holding .b31 [] with unitX := { n := 13, k := 5, buf := [0xEC047E25, 0xB1B3C90F, 1] } }
theorem test_getX : answer (.getX 6) unitP1 = some { status := .ok, result := 31 } ∧
    answer (.getX 12) unitP1 = some { status := .ok, result := 27 } := by decide
theorem test_getX_outside : answer (.getX 13) unitP1 = some { status := .indexOutOfBounds, result := 0 } ∧
    answer (.getX (-1)) unitP1 = some { status := .indexOutOfBounds, result := 0 } := by decide
/-- P1, steps 12 and 13. -/
theorem test_decompressX : (after (.decompressX 13) unitP1).map State.dst =
    some (cells 0 [5, 17, 31, 8, 0, 22, 31, 1, 9, 30, 12, 3, 27]) := by decide +kernel
theorem test_decompressX_wrong : after (.decompressX 14) unitP1 =
    some { unitP1 with response := some { status := .invalidArgument, result := 0 } } := by decide
/-- V-E: CREATE ignores ARG; R33. -/
theorem test_createX : (after (.createX 0x12345678) unitP1).map State.unitX =
    some { n := 0, k := 0, buf := [] } := by decide
theorem test_lengthX : answer (.lengthX 0) unitP1 = some { status := .ok, result := 13 } := by decide
/-- V-X2: an element of width 0 without any buffer word. -/
theorem test_compressX_zero : (after (.compressX 1) (holding .b31 [0])).map State.unitX =
    some { n := 1, k := 0, buf := [] } := by decide +kernel

/-! ### Unit N: V-N -/

/-- V-N9. -/
theorem test_compressN : (after (.compressN 13) (holding .b31 [5, 17, 31, 8, 0, 22, 31, 1, 9, 30, 12, 3, 27])).map
    State.unitN = some { n := 13, k := 5, fieldsPerWord := 6, buf := [0x2C047E25, 0x06CF243F, 0x0000001B] } := by
  decide +kernel
/-- V-N3, in small: one zero word for each zero value. -/
theorem test_compressN_zeros : (after (.compressN 3) (holding .b31 [0, 0, 0])).map State.unitN =
    some { n := 3, k := 0, fieldsPerWord := 1, buf := [0, 0, 0] } := by decide +kernel
/-- V-N8. -/
def unitVN8 : State := { holding .b31 [] with
  unitN := { n := 11, k := 3, fieldsPerWord := 10, buf := [0x3EB1A3F5, 0] } }
theorem test_getN : answer (.getN 9) unitVN8 = some { status := .ok, result := 7 } ∧
    answer (.getN 10) unitVN8 = some { status := .ok, result := 0 } := by decide
theorem test_getN_outside : answer (.getN 11) unitVN8 = some { status := .indexOutOfBounds, result := 0 } := by decide
theorem test_decompressN : (after (.decompressN 11) unitVN8).map State.dst =
    some (cells 0 [5, 6, 7, 1, 2, 3, 4, 5, 6, 7, 0]) := by decide +kernel
theorem test_createN : (after (.createN 0) unitVN8).map State.unitN =
    some { n := 0, k := 0, fieldsPerWord := 1, buf := [] } := by decide
theorem test_lengthN : answer (.lengthN 0) unitVN8 = some { status := .ok, result := 11 } := by decide

/-! ### Unit O: V-O, P3 -/

/-- P3, step 1. -/
theorem test_compressO : (after (.compressO 24) (holding .b31
    [3, 70000, 1, 0, 2, 3, 70000, 1, 2, 0, 3, 1, 500, 2, 1, 3, 0, 2, 1, 3, 2, 1, 0, 3])).map State.unitO =
    some { n := 24, petitK := 2, bitsChamp := 3, overflowCount := 3, ovt := [0x00011170, 0x00011170, 0x000001F4],
           buf := [0x844F408E, 0x4CA0CA55, 0x000000C1] } := by decide +kernel
/-- P5, V-O14: 33-bit fields. -/
theorem test_compressO_33 : (after (.compressO 2) (holding .b32 [0xFFFFFFFF, 0x80000000])).map State.unitO =
    some { n := 2, petitK := 32, bitsChamp := 33, overflowCount := 0, ovt := [], buf := [0xFFFFFFFE, 1, 2] } := by
  decide +kernel
/-- V-O12: a tie between 0 and 32, the smaller kept. -/
theorem test_search_tie : bestWidth (widthsOf [0xFFFFFFFF]) = 0 ∧ totalBits (widthsOf [0xFFFFFFFF]) 0 = 33 ∧
    totalBits (widthsOf [0xFFFFFFFF]) 32 = 33 := by decide +kernel
/-- R165, V-O17. -/
theorem test_search_tie_one : bestWidth (List.replicate 31 0 ++ [1]) = 0 ∧
    totalBits (List.replicate 31 0 ++ [1]) 1 = 64 := by decide +kernel
/-- V-O23: `bitsIndex` above the candidate, tie between 1 and 2. -/
theorem test_search_index : bestWidth (List.replicate 40 1 ++ List.replicate 3 21) = 1 ∧
    fieldBits (List.replicate 40 1 ++ List.replicate 3 21) 1 = 3 ∧
    totalBits (List.replicate 40 1 ++ List.replicate 3 21) 2 = 225 := by decide +kernel
/-- S5: 999 threes and one 100000. -/
theorem test_search_skewed : bestWidth (List.replicate 999 2 ++ [17]) = 2 ∧
    totalBits (List.replicate 999 2 ++ [17]) 2 = 3032 := by decide +kernel
/-- P3's state after its step 1. -/
def unitP3 : State := { holding .b31 [] with
  unitO := { n := 24, petitK := 2, bitsChamp := 3, overflowCount := 3, ovt := [0x00011170, 0x00011170, 0x000001F4],
             buf := [0x844F408E, 0x4CA0CA55, 0x000000C1] } }
/-- P3, steps 6 and 9. -/
theorem test_getO : answer (.getO 6) unitP3 = some { status := .ok, result := 70000 } ∧
    answer (.getO 21) unitP3 = some { status := .ok, result := 1 } := by decide
/-- P3, steps 11 and 12. -/
theorem test_getO_outside : answer (.getO 24) unitP3 = some { status := .indexOutOfBounds, result := 0 } ∧
    answer (.getO (-2147483648)) unitP3 = some { status := .indexOutOfBounds, result := 0 } := by decide
theorem test_decompressO : (after (.decompressO 24) unitP3).map State.dst = some (cells 0
    [3, 70000, 1, 0, 2, 3, 70000, 1, 2, 0, 3, 1, 500, 2, 1, 3, 0, 2, 1, 3, 2, 1, 0, 3]) := by decide +kernel
theorem test_createO : (after (.createO 0) unitP3).map State.unitO =
    some { n := 0, petitK := 0, bitsChamp := 1, overflowCount := 0, ovt := [], buf := [] } := by decide
theorem test_lengthO : answer (.lengthO 0xFFFFFFFF) unitP3 = some { status := .ok, result := 24 } := by decide

/-! ### Errors: S6, V-X19 to V-X21 -/

/-- P3, step 14: a failed COMPRESS leaves the unit as it was. -/
theorem test_compressO_rejected : after (.compressO 1) { unitP3 with src := [(0, 0xFFFFFFFF)] } =
    some { unitP3 with src := [(0, 0xFFFFFFFF)], response := some { status := .invalidArgument, result := 0 } } := by
  decide +kernel
/-- V-X21: ARG above every NMAX, with nothing in SRC. -/
theorem test_compressN_too_long : after (.compressN 0xFFFFFFFF) (holding .b32 []) =
    some { holding .b32 [] with response := some { status := .invalidArgument, result := 0 } } := by decide +kernel
/-- V-X20: NMAX = 8, nine ones and eight ones. -/
def nmaxEight : State := { holding .b31 (List.replicate 9 1) with params := { vbits := .b31, nmaxPred := 7 } }
theorem test_nmax : answer (.compressX 9) nmaxEight = some { status := .invalidArgument, result := 0 } ∧
    (after (.compressX 8) nmaxEight).map State.unitX = some { n := 8, k := 1, buf := [0x000000FF] } := by decide +kernel

/-! ### Witnesses: a state and operands that meet the hypotheses of each obligation -/

/-- All three units hold a sequence with two overflows. -/
def sample : State := packed .b31 [1, 0, 100000, 1, 0, 1, 100001, 1]

theorem sample_source : sample.source 8 = [1, 0, 100000, 1, 0, 1, 100001, 1] := by decide

theorem sample_inv : sample.Inv := by
  have h := State.accepts_source (s := sample) (n := 8) (by decide)
  rw [sample_source] at h
  exact ⟨packX_inv _ _ h.1 h.2, packN_inv _ _ h.1 h.2, packO_inv _ _ h.1 h.2, by decide, by decide⟩

theorem sample_accepted : sourceAccepted sample 8 := ⟨by decide, by decide⟩

theorem witness_DecodeOfEncodeIsIdentity : (Instr.getX (-2147483648)).wellFormed = true ∧
    (Instr.decompressO 4294967295).wellFormed = true := by decide
theorem witness_EncodeOfDecodeIsIdentity : decode 0x00000034 0xFFFFFFFF = .ok (.lengthO 0xFFFFFFFF) := by decide
theorem witness_StepRunsDecodedCommand :
    ({ sample with host := [.issue 0x00000012 2] } : State).host = .issue 0x00000012 2 :: [] ∧
      decode 0x00000012 2 = .ok (.getX 2) := by decide
theorem witness_StepTakesHostMoves : sample.host = [] ∧
    ({ sample with host := [.writeSrc 3 7] } : State).host = .writeSrc 3 7 :: [] ∧
    ({ sample with host := [.writeDst 0 7] } : State).host = .writeDst 0 7 :: [] ∧
    ({ sample with host := [.powerOn] } : State).host = .powerOn :: [] := by decide +kernel
theorem witness_AssembledLineRuns : (AsmLine.compress .overflow [3, 70000]).instr.wellFormed = true ∧
    (AsmLine.get .cross (-1)).instr.wellFormed = true := by decide
theorem witness_IllegalWordsAnswered : (0x00000040 : Word) ∉ commandWords ∧ (0x00000002 : Word) ∉ commandWords ∧
    (0x00000035 : Word) ∉ commandWords ∧ (0x00000034 : Word) ∈ commandWords ∧
    ({ sample with host := [.issue 0x00000040 0] } : State).host = .issue 0x00000040 0 :: [] := by decide
theorem witness_BitsNeededIsLeastWidth : 1 ≤ 1 ∧ 2147483645 < 2 ^ 31 - 1 ∧ 4294967295 < 2 ^ 32 ∧ 5 < 2 ^ 3 := by decide
theorem witness_MaskLowSetsLowBits : 31 ≤ 31 ∧ 32 ≤ 32 := by decide
theorem witness_BitUtilityLaws : bitsNeeded (7 : Word).toNat ≤ 3 ∧ 2 < bitsNeeded (7 : Word).toNat ∧ 3 ≤ 7 := by decide
theorem witness_BitsNeededCommand : 0x7FFFFFFF < 2 ^ (holding .b31 []).params.width ∧
    2 ^ (holding .b31 []).params.width ≤ 0x80000000 ∧ 0xFFFFFFFF < 2 ^ (holding .b32 []).params.width := by decide
theorem witness_MaskLowCommand : 31 ≤ 31 ∧ 0 ≤ 31 ∧ 32 ≤ 32 := by decide
theorem witness_FieldReadAfterWrite : 33 ≤ 33 ∧ 31 + 33 ≤ 32 * ([1, 0] : List Word).length ∧
    (∀ q, 31 ≤ q → q < 31 + 33 → bufBit [1, 0] q = false) := by
  refine ⟨by decide, by decide, fun q h1 h2 => ?_⟩
  have : ∀ r : Fin 33, bufBit [1, 0] (31 + r.val) = false := by decide
  have := this ⟨q - 31, by omega⟩
  rwa [Nat.add_sub_cancel' h1] at this
theorem witness_FieldsDoNotInterfere : 33 ≤ 33 ∧ 2 * 33 ≤ 32 * 3 ∧ [1, 0].Perm (List.range 2) := by decide
theorem witness_FieldLiesInTwoWords : 5 ≤ 33 ∧ 27 % 32 + 5 ≤ 32 ∧ 33 ≤ 33 ∧ 32 < 31 % 32 + 33 := by decide
theorem witness_FlagCodecRoundTrip : 1 < 2 ∧ 1 ≤ 33 ∧ 0xFFFFFFFF < 2 ^ (33 - 1) ∧ 1 ≤ 1 ∧ 0 < 2 ^ (1 - 1) := by decide
theorem witness_LengthReturnsCount : (holding .b31 []).params.nmax < 100 ∧
    0 < 1 ∧ 2 ^ (holding .b31 [0x80000000]).params.width ≤ ((holding .b31 [0x80000000]).readSrc 0).toNat := by decide
theorem witness_CompressXPacksEndToEnd : sourceAccepted sample 8 ∧ sourceAccepted sample 0 ∧
    ¬ sourceAccepted sample 100 ∧ ¬ sourceAccepted (holding .b31 [0x80000000]) 1 :=
  ⟨sample_accepted, ⟨by decide, by decide⟩, fun h => absurd h.1 (by decide),
    fun h => absurd (h.2 0 (by decide)) (by decide)⟩
theorem witness_CompressNPacksInWords : sourceAccepted sample 8 ∧ sourceAccepted (holding .b31 [0, 0]) 2 ∧
    sourceAccepted sample 0 ∧ ¬ sourceAccepted sample 100 :=
  ⟨sample_accepted, ⟨by decide, by decide⟩, ⟨by decide, by decide⟩, fun h => absurd h.1 (by decide)⟩
/-- Element 2 overflows the width the search picks, element 0 does not. -/
theorem witness_CompressOBuildsTableAndFields : sourceAccepted sample 8 ∧
    bestWidth (widthsOf (sample.source 8)) < bitsNeeded (sample.readSrc 2).toNat ∧
    bitsNeeded (sample.readSrc 0).toNat ≤ bestWidth (widthsOf (sample.source 8)) ∧ sourceAccepted sample 0 ∧
    ¬ sourceAccepted sample 100 :=
  ⟨sample_accepted, by decide +kernel, by decide +kernel, ⟨by decide, by decide⟩, fun h => absurd h.1 (by decide)⟩

/-- COMPRESS succeeds on the sample, in every unit. -/
theorem witness_OverflowFlagTellsTruth : ∃ t, exec (.compressO 8) sample = .next t ∧
    t.response = some { status := .ok, result := 0 } := exec_next_of_after (by decide +kernel)
theorem witness_CompressOverwritesItsUnit :
    (∃ t, exec (.compressX 8) sample = .next t ∧ t.response = some { status := .ok, result := 0 }) ∧
    (∃ t, exec (.compressN 8) sample = .next t ∧ t.response = some { status := .ok, result := 0 }) ∧
    ∃ t, exec (.compressO 8) sample = .next t ∧ t.response = some { status := .ok, result := 0 } :=
  ⟨exec_next_of_after (by decide +kernel), exec_next_of_after (by decide +kernel),
    exec_next_of_after (by decide +kernel)⟩
/-- Another SRC that agrees on the first word only; and a length above NMAX. -/
theorem witness_CompressReadsOnlyItsSource :
    (∀ j, j < 1 → ({ holding .b31 [5] with src := [(0, 5), (7, 1)] } : State).readSrc j =
      (holding .b31 [5]).readSrc j) ∧
    (∃ t, exec (.compressX 1) (holding .b31 [5]) = .next t) ∧ (∃ t, exec (.compressN 1) (holding .b31 [5]) = .next t) ∧
    (∃ t, exec (.compressO 1) (holding .b31 [5]) = .next t) ∧
    ¬ 100 ≤ (holding .b31 [5]).params.nmax ∧ ∃ t, exec (.compressX 100) (holding .b31 [5]) = .next t :=
  ⟨by decide, exec_next_of_isSome (by decide +kernel),
    exec_next_of_isSome (by decide +kernel), exec_next_of_isSome (by decide +kernel),
    by decide, exec_next_of_isSome (by decide +kernel)⟩
/-- A width that divides 32, and width 0. -/
theorem witness_CrossAndNoCrossAgree :
    (sourceAccepted (holding .b31 [1, 2, 3]) 3 ∧ (∃ t, exec (.compressX 3) (holding .b31 [1, 2, 3]) = .next t ∧
      1 ≤ t.unitX.k.toNat ∧ t.unitX.k.toNat ∣ 32) ∧ ∃ t, exec (.compressN 3) (holding .b31 [1, 2, 3]) = .next t) ∧
    (sourceAccepted (holding .b31 [0, 0]) 2 ∧ (∃ t, exec (.compressX 2) (holding .b31 [0, 0]) = .next t ∧
      t.unitX.k.toNat = 0) ∧ ∃ t, exec (.compressN 2) (holding .b31 [0, 0]) = .next t) :=
  ⟨⟨⟨by decide, by decide⟩, exec_next_of_after (by decide +kernel), exec_next_of_isSome (by decide +kernel)⟩,
    ⟨by decide, by decide⟩, exec_next_of_after (by decide +kernel), exec_next_of_isSome (by decide +kernel)⟩
theorem witness_BoundaryWidths : 5 ≤ (holding .b31 [0, 0, 0, 0, 0]).params.nmax ∧
    (∀ j, j < 5 → (holding .b31 [0, 0, 0, 0, 0]).readSrc j = 0) ∧
    ((holding .b31 [0x7FFFFFFF]).readSrc 0).toNat = 2 ^ (holding .b31 []).params.width - 1 ∧
    ((holding .b32 [0xFFFFFFFF]).readSrc 0).toNat = 2 ^ (holding .b32 []).params.width - 1 ∧
    (holding .b31 [0xFFFFFFFF]).params.vbits = .b31 ∧ (holding .b31 [0xFFFFFFFF]).readSrc 0 = 0xFFFFFFFF := by decide
theorem witness_SearchPicksLeastOptimum : 2 ≤ max 1 (maxOf [2, 2, 17]) ∧ 1 < bestWidth [2, 2, 17] ∧
    ([3, 3, 100000] : List Word).length ≤ 2147483647 := by decide +kernel
theorem witness_SearchFacts : (∀ v ∈ ([3, 0x7FFFFFFF] : List Word), v.toNat < 2 ^ (params .b31).width) ∧
    ([3, 0x7FFFFFFF] : List Word).length ≤ 2147483647 ∧ 1 ≤ maxOf [2, 31] ∧ maxOf [0, 0] = 0 ∧ maxOf [2, 31] ≤ 31 ∧
    (∀ b ∈ [2, 32], b ≤ 32) := by
  refine ⟨?_, by decide, by decide, by decide, by decide, by simp⟩
  simp [params, Params.width, VBits.toNat]
theorem witness_GetXReturnsField : sample.unitX.Inv sample.params ∧ 7 < sample.unitX.n.toNat ∧
    (sample.unitX.n.toNat : Int) ≤ 8 ∧ (-1 : Int) < 0 := ⟨sample_inv.unitX, by decide, by decide, by decide⟩
theorem witness_GetNReturnsSlot : sample.unitN.Inv sample.params ∧ 7 < sample.unitN.n.toNat ∧
    (sample.unitN.n.toNat : Int) ≤ 8 := ⟨sample_inv.unitN, by decide, by decide⟩
/-- Field 0 is unflagged and field 2 is flagged. -/
theorem witness_GetOReturnsContentOrEntry : sample.unitO.Inv sample.params ∧ 7 < sample.unitO.n.toNat ∧
    (sample.unitO.field 0).map (fun f => (decField f).1) = some 0 ∧
    (sample.unitO.field 2).map (fun f => (decField f).1) = some 1 :=
  ⟨sample_inv.unitO, by decide, by decide +kernel, by decide +kernel⟩
/-- A state that breaks R27: a flagged field and no table. -/
def strayState : State := { holding .b31 [] with
  unitO := { n := 1, petitK := 0, bitsChamp := 1, overflowCount := 0, ovt := [], buf := [1] } }
theorem witness_StrayFlagStillAnswersOk : 0 < strayState.unitO.n.toNat ∧ strayState.unitO.field 0 = some 1 ∧
    (decField 1).1 = 1 ∧ strayState.unitO.ovt.length ≤ (decField 1).2 := by decide
theorem witness_GetIsIdempotent : (∃ t, exec (.getX 1) unitP1 = .next t) ∧ (∃ t, exec (.getN 9) unitVN8 = .next t) ∧
    ∃ t, exec (.getO 6) unitP3 = .next t :=
  ⟨exec_next_of_isSome (by decide +kernel), exec_next_of_isSome (by decide +kernel),
    exec_next_of_isSome (by decide +kernel)⟩
theorem witness_DecompressXFillsDestination : sample.unitX.Inv sample.params ∧ 0 < sample.unitX.n.toNat ∧
    7 ≠ sample.unitX.n.toNat := ⟨sample_inv.unitX, by decide, by decide⟩
theorem witness_DecompressNFillsDestination : sample.unitN.Inv sample.params ∧ 0 < sample.unitN.n.toNat ∧
    9 ≠ sample.unitN.n.toNat := ⟨sample_inv.unitN, by decide, by decide⟩
theorem witness_DecompressOFillsDestination : sample.unitO.Inv sample.params ∧ 0 < sample.unitO.n.toNat ∧
    0 ≠ sample.unitO.n.toNat := ⟨sample_inv.unitO, by decide, by decide⟩
theorem witness_CrossWordRoundTrip : ∃ t, exec (.compressX 8) sample = .next t ∧
    t.response = some { status := .ok, result := 0 } ∧ (t.reply 5).unitX = t.unitX :=
  exec_next_of_after (by decide +kernel)
theorem witness_NoCrossRoundTrip : ∃ t, exec (.compressN 8) sample = .next t ∧
    t.response = some { status := .ok, result := 0 } ∧ (t.reply 5).unitN = t.unitN :=
  exec_next_of_after (by decide +kernel)
theorem witness_OverflowRoundTrip : ∃ t, exec (.compressO 8) sample = .next t ∧
    t.response = some { status := .ok, result := 0 } ∧ (t.reply 5).unitO = t.unitO :=
  exec_next_of_after (by decide +kernel)
theorem witness_StepKeepsInvariant : sample.Inv ∧ ∃ t, step sample = .next t := ⟨sample_inv, _, rfl⟩
theorem witness_EveryStepAnswers : sample.Inv ∧ 7 < sample.unitX.n.toNat ∧ 7 < sample.unitN.n.toNat ∧
    7 < sample.unitO.n.toNat := ⟨sample_inv, by decide, by decide, by decide⟩
theorem witness_OnlyCreateAndCompressWriteUnits : writesUnit (.getX 1) = false ∧ ∃ t, exec (.getX 1) unitP1 = .next t :=
  ⟨rfl, exec_next_of_isSome (by decide +kernel)⟩
/-- Two states that agree on unit X, SRC and the parameters and differ in unit O. -/
theorem witness_UnitsAreIndependent : (∃ t, exec (.decompressX 13) unitP1 = .next t) ∧
    ({ unitP1 with unitO := strayState.unitO } : State).params = unitP1.params ∧
    ({ unitP1 with unitO := strayState.unitO } : State).src = unitP1.src ∧
    ({ unitP1 with unitO := strayState.unitO } : State).unitX = unitP1.unitX ∧
    unitOf (.decompressX 13) = .x ∧ ({ unitP1 with unitO := strayState.unitO } : State) ≠ unitP1 :=
  ⟨exec_next_of_isSome (by decide +kernel), rfl, rfl, rfl, rfl, by decide⟩
theorem witness_ErrorsLeaveNoMark : ∃ t, exec (.getX 13) unitP1 = .next t ∧
    t.response = some { status := .indexOutOfBounds, result := 0 } ∧ Status.indexOutOfBounds ≠ .ok :=
  exec_next_of_after (by decide +kernel)
theorem witness_InvalidArgumentCauses : invalidCause unitP1 (.decompressX 14) ∧ invalidCause unitP1 (.compressX 100) ∧
    invalidCause unitP1 (.bitsNeeded 0x80000000) := 
  ⟨(by decide : 14 ≠ unitP1.unitX.n.toNat), .inl (by decide), (by decide : 2 ^ unitP1.params.width ≤ 0x80000000)⟩
theorem witness_IndexOutOfBoundsCause : indexCause unitP1 (.getX 13) ∧ indexCause unitP1 (.getN (-1)) ∧
    indexCause unitP1 (.getO 0) := ⟨.inr (by decide), .inl (by decide), .inr (by decide)⟩
theorem witness_CommandsAnswerAllowedStatuses : (Instr.bitsNeeded 0x80000000).wellFormed = true ∧
    (∃ t, exec (.bitsNeeded 0x80000000) unitP1 = .next t) ∧ sample.Inv :=
  ⟨by decide, exec_next_of_isSome (by decide +kernel), sample_inv⟩
theorem witness_CommandsNeverWriteHostState : writesDst (.compressX 8) = false ∧
    ∃ t, exec (.compressX 8) sample = .next t := ⟨rfl, exec_next_of_isSome (by decide +kernel)⟩

end Sys2Proof.Tests
end

section
/-! PROOFS. What a step does with an issued command: it is fetched, decoded and run (R10, R77). -/

namespace Sys2Proof.Machine

theorem State.receive_of_decode_ok {s : State} {cmd arg : Word} {i : Instr} (hdecode : decode cmd arg = .ok i) :
    s.receive cmd arg = .run i s := by
  simp only [State.receive, hdecode]

theorem State.fetch_of_issue {s : State} {cmd arg : Word} {rest : List HostMove}
    (hhost : s.host = .issue cmd arg :: rest) :
    s.fetch = ({ s with host := rest } : State).receive cmd arg := by
  simp only [State.fetch, hhost]

theorem step_of_fetch_run {s t : State} {i : Instr} (hfetch : s.fetch = .run i t) : step s = exec i t := by
  simp only [step, hfetch]

/-- Settles O4: the issued words are fetched, they decode, and the step runs what was fetched. -/
theorem stepRunsDecodedCommand : Obligations.StepRunsDecodedCommand := by
  intro s cmd arg rest i hhost hdecode
  have hfetch : s.fetch = .run i { s with host := rest } :=
    (State.fetch_of_issue hhost).trans (State.receive_of_decode_ok hdecode)
  exact step_of_fetch_run hfetch

end Sys2Proof.Machine
end

section
/-! PROOFS. What every command leaves unchanged (R21, R30, R50, R52), read off `exec_next_cases`. -/

namespace Sys2Proof.Machine

/-- A command writes neither the parameters, nor SRC, nor the host's moves, and only DECOMPRESS writes DST. -/
theorem exec_keeps_hostState {i : Instr} {s t : State} (hexec : exec i s = .next t) :
    t.params = s.params ∧ t.src = s.src ∧ t.host = s.host ∧ (writesDst i = false → t.dst = s.dst) := by
  rcases exec_next_cases hexec with ⟨e, -, rfl⟩ | ⟨v, -, -, rfl⟩ | ⟨ws, hwrites, rfl⟩ | ⟨-, -, u, -, rfl⟩ |
    ⟨-, -, u, -, rfl⟩ | ⟨-, -, u, -, rfl⟩
  case inr.inr.inl => exact ⟨rfl, rfl, rfl, fun hkeeps => by simp [hwrites] at hkeeps⟩
  all_goals exact ⟨rfl, rfl, rfl, fun _ => rfl⟩

/-- Settles O50: the frame of `exec` on what the host owns. -/
theorem commandsNeverWriteHostState : Obligations.CommandsNeverWriteHostState :=
  fun _ _ _ hexec => exec_keeps_hostState hexec

/-- A command that is neither CREATE nor COMPRESS leaves all three units as they were: every case of
`exec_next_cases` that replaces a unit has `writesUnit i = true`. -/
theorem exec_keeps_units {i : Instr} {s t : State} (hreads : writesUnit i = false) (hexec : exec i s = .next t) :
    t.unitX = s.unitX ∧ t.unitN = s.unitN ∧ t.unitO = s.unitO := by
  rcases exec_next_cases hexec with ⟨e, -, rfl⟩ | ⟨v, -, -, rfl⟩ | ⟨ws, -, rfl⟩ | ⟨-, hwrites, -⟩ |
    ⟨-, hwrites, -⟩ | ⟨-, hwrites, -⟩
  case inl | inr.inl | inr.inr.inl => exact ⟨rfl, rfl, rfl⟩
  all_goals simp [hwrites] at hreads

/-- Settles O44: the frame of `exec` on the three units. -/
theorem onlyCreateAndCompressWriteUnits : Obligations.OnlyCreateAndCompressWriteUnits :=
  fun _ _ _ hreads hexec => exec_keeps_units hreads hexec

end Sys2Proof.Machine
end

section
/-! PROOFS. The invariants of R23, R25 and R27 hold at reset and are kept by every step. -/

namespace Sys2Proof.Machine

/-- Settles O41: each unit is in its reset state, which packing the empty sequence gives, and nothing is listed in SRC
and DST. -/
theorem resetSatisfiesInvariant : Obligations.ResetSatisfiesInvariant where
  unitX := reset_invX _
  unitN := reset_invN _
  unitO := reset_invO _
  src := rfl
  dst := rfl

/-! ### What each update of the state does to the invariant -/

section
variable {s : State}

theorem State.Inv.reply (h : s.Inv) (v : Word) : (s.reply v).Inv := { h with }

theorem State.Inv.raise (h : s.Inv) (e : Status) : (s.raise e).Inv := { h with }

theorem State.Inv.setHost (h : s.Inv) (moves : List HostMove) : ({ s with host := moves } : State).Inv := { h with }

theorem State.Inv.setSrc (h : s.Inv) {m : Memory} (hm : m.wf = true) : ({ s with src := m } : State).Inv :=
  { h with src := hm }

theorem State.Inv.setDst (h : s.Inv) {m : Memory} (hm : m.wf = true) : ({ s with dst := m } : State).Inv :=
  { h with dst := hm }

theorem State.Inv.setUnitX (h : s.Inv) {u : XUnit} (hu : u.Inv s.params) : ({ s with unitX := u } : State).Inv :=
  { h with unitX := hu }

theorem State.Inv.setUnitN (h : s.Inv) {u : NUnit} (hu : u.Inv s.params) : ({ s with unitN := u } : State).Inv :=
  { h with unitN := hu }

theorem State.Inv.setUnitO (h : s.Inv) {u : OUnit} (hu : u.Inv s.params) : ({ s with unitO := u } : State).Inv :=
  { h with unitO := hu }

theorem State.Inv.powerOn (h : s.Inv) : s.powerOn.Inv :=
  { h with unitX := reset_invX _, unitN := reset_invN _, unitO := reset_invO _ }

end

/-! ### Commands and steps -/

/-- A command keeps the invariant: what it writes to a unit satisfies that unit's, and DST is filled word by word. -/
theorem exec_keeps_inv {i : Instr} {s t : State} (h : s.Inv) (hexec : exec i s = .next t) : t.Inv := by
  rcases exec_next_cases hexec with ⟨e, -, rfl⟩ | ⟨v, -, -, rfl⟩ | ⟨ws, -, rfl⟩ | ⟨-, -, u, hu, rfl⟩ |
    ⟨-, -, u, hu, rfl⟩ | ⟨-, -, u, hu, rfl⟩
  · exact h.raise e
  · exact h.reply v
  · exact (h.setDst (Memory.wf_writeAll ws s.dst 0 h.dst)).reply 0
  · exact (h.setUnitX hu).reply 0
  · exact (h.setUnitN hu).reply 0
  · exact (h.setUnitO hu).reply 0

/-- Settles O42, by the cases of a step: idle, a host write, a power-on reset, an illegal word, or a command. -/
theorem stepKeepsInvariant : Obligations.StepKeepsInvariant := by
  intro s t h hstep
  rcases step_cases s with heq | ⟨m, rest, heq, hm⟩ | ⟨m, rest, heq, hm⟩ | ⟨rest, heq⟩ | ⟨rest, heq⟩ | ⟨i, rest, heq⟩ <;>
    rw [heq] at hstep
  case inr.inr.inr.inr.inr => exact exec_keeps_inv (h.setHost rest) hstep
  all_goals cases hstep
  · exact h
  · exact (h.setSrc (hm h.src)).setHost rest
  · exact (h.setDst (hm h.dst)).setHost rest
  · exact (h.setHost rest).powerOn
  · exact (h.setHost rest).raise .illegalCommand

end Sys2Proof.Machine
end

section
/-! PROOFS. Repeating GET gives the same response and changes nothing more (S3). -/

namespace Sys2Proof.Machine

@[simp] theorem State.raise_raise (s : State) (e : Status) : (s.raise e).raise e = s.raise e := rfl

@[simp] theorem State.reply_reply (s : State) (v : Word) : (s.reply v).reply v = s.reply v := rfl

theorem getElement_outside {n : Word} {i : Int} (element : Nat → Option Word) (s : State)
    (hout : i < 0 ∨ (n.toNat : Int) ≤ i) : getElement n element i s = .next (s.raise .indexOutOfBounds) :=
  if_pos hout

theorem getElement_inside {n : Word} {j : Nat} (element : Nat → Option Word) (s : State) (hj : j < n.toNat) :
    getElement n element j s = s.answer (element j) :=
  if_neg (by omega)

/-- The shared `get` repeated on the state it left: the response depends on the element alone, and giving a response
twice is giving it once. -/
theorem getElement_idempotent {n : Word} {element : Nat → Option Word} {i : Int} {s t : State}
    (hget : getElement n element i s = .next t) : getElement n element i t = .next t := by
  rcases getElement_cases n element i s with ⟨hout, heq⟩ | ⟨j, rfl, hj, heq⟩ <;> rw [heq] at hget
  · cases hget
    rw [getElement_outside element _ hout, State.raise_raise]
  · rw [getElement_inside element t hj]
    rcases s.answer_cases (element j) with ⟨w, hw, hanswer⟩ | ⟨-, hanswer⟩ <;> rw [hanswer] at hget <;> cases hget
    rw [hw, State.answer, State.reply_reply]

theorem exec_getX (i : Int) (s : State) : exec (.getX i) s = getElement s.unitX.n s.unitX.element i s := rfl

theorem exec_getN (i : Int) (s : State) : exec (.getN i) s = getElement s.unitN.n s.unitN.element i s := rfl

theorem exec_getO (i : Int) (s : State) : exec (.getO i) s = getElement s.unitO.n s.unitO.element i s := rfl

/-- Settles O33: GET leaves its unit as it was (R21), so the second GET is the shared `get` of the same elements. -/
theorem getIsIdempotent : Obligations.GetIsIdempotent := by
  intro s t i
  refine ⟨fun hget => ?_, fun hget => ?_, fun hget => ?_⟩ <;>
    obtain ⟨hX, hN, hO⟩ := exec_keeps_units rfl hget
  · rw [exec_getX] at hget ⊢
    rw [hX]; exact getElement_idempotent hget
  · rw [exec_getN] at hget ⊢
    rw [hN]; exact getElement_idempotent hget
  · rw [exec_getO] at hget ⊢
    rw [hO]; exact getElement_idempotent hget

end Sys2Proof.Machine
end

section
/-! PROOFS. Reset, CREATE and COMPRESS of the empty sequence (R33, R210 to R212). -/

namespace Sys2Proof.Machine

@[simp] theorem packX_nil : packX [] = XUnit.reset := rfl

@[simp] theorem packN_nil : packN [] = NUnit.reset := rfl

@[simp] theorem packO_nil : packO [] = OUnit.reset := rfl

@[simp] theorem State.source_zero (s : State) : s.source 0 = [] := rfl

/-- The empty sequence is accepted whatever SRC holds. -/
theorem State.accepts_zero (s : State) : s.accepts 0 = true :=
  (s.accepts_iff 0).mpr ⟨Nat.zero_le _, fun _ hj => absurd hj (Nat.not_lt_zero _)⟩

/-- COMPRESS of the empty sequence succeeds from every state. -/
theorem compressInto_zero (install : State → List Word → State) (s : State) :
    compressInto install 0 s = .next ((install s []).reply 0) := by
  rw [compressInto, if_pos s.accepts_zero, State.source_zero]

theorem exec_compressX_zero (s : State) :
    exec (.compressX 0) s = .next (({ s with unitX := XUnit.reset } : State).reply 0) := by
  rw [exec, execCompressX, compressInto_zero, packX_nil]

theorem exec_compressN_zero (s : State) :
    exec (.compressN 0) s = .next (({ s with unitN := NUnit.reset } : State).reply 0) := by
  rw [exec, execCompressN, compressInto_zero, packN_nil]

theorem exec_compressO_zero (s : State) :
    exec (.compressO 0) s = .next (({ s with unitO := OUnit.reset } : State).reply 0) := by
  rw [exec, execCompressO, compressInto_zero, packO_nil]

/-- Settles O40: CREATE installs the reset state of its unit, which is what packing the empty sequence gives; at reset
the host's list is empty, so the step is idle. -/
theorem resetHoldsEmptySequence : Obligations.ResetHoldsEmptySequence := by
  refine ⟨rfl, rfl, rfl, rfl, rfl, fun s arg => ?_⟩
  rw [exec_compressX_zero, exec_compressN_zero, exec_compressO_zero]
  exact ⟨rfl, rfl, rfl, rfl, rfl, rfl⟩

end Sys2Proof.Machine
end

section
/-! PROOFS. What COMPRESS depends on: the parameters and the source words it reads (R51), never the old contents of
its unit (R53, R214). -/

namespace Sys2Proof.Machine

theorem exec_compressX (n : Nat) (s : State) :
    exec (.compressX n) s = compressInto (fun s vs => { s with unitX := packX vs }) n s := rfl

theorem exec_compressN (n : Nat) (s : State) :
    exec (.compressN n) s = compressInto (fun s vs => { s with unitN := packN vs }) n s := rfl

theorem exec_compressO (n : Nat) (s : State) :
    exec (.compressO n) s = compressInto (fun s vs => { s with unitO := packO vs }) n s := rfl

/-- The acceptance test depends on the parameters and, for `n <= NMAX` only, on the first `n` words of SRC. -/
theorem State.accepts_congr {s s' : State} {n : Nat} (hparams : s'.params = s.params)
    (hread : n ≤ s.params.nmax → ∀ j, j < n → s'.readSrc j = s.readSrc j) : s'.accepts n = s.accepts n := by
  rw [Bool.eq_iff_iff, State.accepts_iff, State.accepts_iff, hparams]
  refine and_congr_right fun hn => forall₂_congr fun j hj => ?_
  rw [hread hn j hj]

theorem State.source_congr {s s' : State} {n : Nat} (hread : ∀ j, j < n → s'.readSrc j = s.readSrc j) :
    s'.source n = s.source n :=
  List.map_congr_left fun j hj => hread j (List.mem_range.mp hj)

section
variable {install : State → List Word → State} {s s' t : State} {n : Nat}

/-- A COMPRESS that answers OK accepted its source and left what it installs. -/
theorem compressInto_ok (hok : t.response = some { status := .ok, result := 0 })
    (hcompress : compressInto install n s = .next t) :
    s.accepts n = true ∧ t = (install s (s.source n)).reply 0 := by
  rcases compressInto_cases install n s with ⟨haccepts, heq⟩ | ⟨-, heq⟩ <;> rw [heq] at hcompress <;> cases hcompress
  · exact ⟨haccepts, rfl⟩
  · simp at hok

/-- A successful COMPRESS gives the same from a state it cannot tell apart: the same parameters and SRC, and the same
once the new contents are installed. -/
theorem compressInto_ok_congr (hok : t.response = some { status := .ok, result := 0 })
    (hcompress : compressInto install n s = .next t) (hparams : s'.params = s.params) (hsrc : s'.src = s.src)
    (hinstall : install s' = install s) : compressInto install n s' = .next t := by
  obtain ⟨haccepts, rfl⟩ := compressInto_ok hok hcompress
  have hread : ∀ j, j < n → s'.readSrc j = s.readSrc j := fun j _ => congrFun (State.readSrc_congr hsrc) j
  rw [compressInto, if_pos ((State.accepts_congr hparams fun _ => hread).trans haccepts), State.source_congr hread,
    hinstall]

/-- Exchanging SRC for one that agrees on the words COMPRESS reads exchanges SRC in the result and nothing else. -/
theorem compressInto_setSrc {m : Memory}
    (hread : n ≤ s.params.nmax → ∀ j, j < n → ({ s with src := m } : State).readSrc j = s.readSrc j)
    (hinstall : ∀ vs, install { s with src := m } vs = { install s vs with src := m })
    (hcompress : compressInto install n s = .next t) :
    compressInto install n { s with src := m } = .next { t with src := m } := by
  have hsame : ({ s with src := m } : State).accepts n = s.accepts n := State.accepts_congr rfl hread
  rcases compressInto_cases install n s with ⟨haccepts, heq⟩ | ⟨hrejects, heq⟩ <;> rw [heq] at hcompress <;>
    cases hcompress
  · have hn : n ≤ s.params.nmax := ((s.accepts_iff n).mp haccepts).1
    rw [compressInto, if_pos (hsame.trans haccepts), State.source_congr (hread hn), hinstall]
    rfl
  · rw [compressInto, if_neg (by simp [hsame, hrejects])]
    rfl

end

/-- Settles O23: replacing the unit changes neither what COMPRESS reads nor what it installs. -/
theorem compressOverwritesItsUnit : Obligations.CompressOverwritesItsUnit := by
  intro s t n hok
  simp only [exec_compressX, exec_compressN, exec_compressO]
  exact ⟨fun hcompress _ => compressInto_ok_congr hok hcompress rfl rfl rfl,
    fun hcompress _ => compressInto_ok_congr hok hcompress rfl rfl rfl,
    fun hcompress _ => compressInto_ok_congr hok hcompress rfl rfl rfl⟩

/-- Settles O24: the three COMPRESS commands are the shared `compress`, and none of them installs anything in SRC. -/
theorem compressReadsOnlyItsSource : Obligations.CompressReadsOnlyItsSource := by
  intro s t m n hread
  simp only [exec_compressX, exec_compressN, exec_compressO]
  exact ⟨compressInto_setSrc hread fun _ => rfl, compressInto_setSrc hread fun _ => rfl,
    compressInto_setSrc hread fun _ => rfl⟩

end Sys2Proof.Machine
end

section
/-! PROOFS. In a state with the invariants every access is inside its buffer or table (R59), so every command and every
step answers (R224). -/

namespace Sys2Proof.Machine

/-! ### Accesses stay inside -/

/-- Of `n` fields of `w` bits end to end, each lies inside the words rounded up for all of them. -/
theorem field_inside {n w i len : Nat} (hlen : len = ceilDiv (n * w) 32) (hi : i < n) : i * w + w ≤ 32 * len :=
  calc i * w + w = (i + 1) * w := (Nat.succ_mul i w).symm
    _ ≤ n * w := Nat.mul_le_mul_right w hi
    _ ≤ 32 * len := hlen ▸ ceilDiv_mul_ge (n * w) 32 (by decide)

theorem NUnit.Inv.fieldsPerWord_pos {p : Params} {u : NUnit} (h : u.Inv p) : 0 < u.fieldsPerWord.toNat := by
  rw [h.fpw]
  exact Machine.fieldsPerWord_pos (le_trans h.k_le (Nat.min_le_left _ _))

theorem NUnit.Inv.slot_inside {p : Params} {u : NUnit} (h : u.Inv p) {i : Nat} (hi : i < u.n.toNat) :
    i / u.fieldsPerWord.toNat < u.buf.length := by
  obtain ⟨x, hx, -⟩ := h.element_eq hi
  exact (List.getElem?_eq_some_iff.mp hx).1

/-- Every element of the sequence a unit holds can be read. -/
def ElementsExist (n : Word) (element : Nat → Option Word) : Prop := ∀ j, j < n.toNat → ∃ w, element j = some w

theorem XUnit.Inv.elementsExist {p : Params} {u : XUnit} (h : u.Inv p) : ElementsExist u.n u.element := fun _ hj =>
  let ⟨f, _, _, helement⟩ := h.element_eq hj
  ⟨BitVec.ofNat 32 f, helement⟩

theorem NUnit.Inv.elementsExist {p : Params} {u : NUnit} (h : u.Inv p) : ElementsExist u.n u.element := fun _ hj =>
  let ⟨_, _, helement⟩ := h.element_eq hj
  ⟨_, helement⟩

theorem OUnit.Inv.elementsExist {p : Params} {u : OUnit} (h : u.Inv p) : ElementsExist u.n u.element := fun _ hj =>
  let ⟨_, w, _, helement, _⟩ := h.element_eq hj
  ⟨w, helement⟩

/-! ### The shared operations answer -/

theorem compressInto_answers (install : State → List Word → State) (n : Nat) (s : State) :
    ∃ t, compressInto install n s = .next t := by
  rcases compressInto_cases install n s with ⟨-, heq⟩ | ⟨-, heq⟩ <;> exact ⟨_, heq⟩

section
variable {n : Word} {element : Nat → Option Word} (helements : ElementsExist n element)
include helements

theorem getElement_answers (i : Int) (s : State) : ∃ t, getElement n element i s = .next t := by
  rcases getElement_cases n element i s with ⟨-, heq⟩ | ⟨j, -, hj, heq⟩
  · exact ⟨_, heq⟩
  · obtain ⟨w, hw⟩ := helements j hj
    exact ⟨s.reply w, by rw [heq, hw, State.answer]⟩

theorem fillDestination_answers (dlen : Nat) (s : State) : ∃ t, fillDestination n element dlen s = .next t := by
  rcases fillDestination_cases n element dlen s with ⟨-, heq⟩ | ⟨-, ws, -, heq⟩ | ⟨-, hnone, -⟩
  · exact ⟨_, heq⟩
  · exact ⟨_, heq⟩
  · obtain ⟨ws, hws⟩ := collect_isSome element 0 n.toNat fun j hj => by
      rw [Nat.zero_add]
      exact Option.isSome_iff_exists.mpr (helements j hj)
    simp [hnone] at hws

end

/-! ### Commands and steps answer -/

/-- Only an element that cannot be read stops a command, and with the invariants every element can be read. -/
theorem exec_answers {s : State} (h : s.Inv) (i : Instr) : ∃ t, exec i s = .next t := by
  cases i with
  | bitsNeeded v =>
    rw [exec, execBitsNeeded]
    split <;> exact ⟨_, rfl⟩
  | maskLow _ | createX _ | createN _ | createO _ | lengthX _ | lengthN _ | lengthO _ => exact ⟨_, rfl⟩
  | compressX n => exact exec_compressX n s ▸ compressInto_answers _ n s
  | compressN n => exact exec_compressN n s ▸ compressInto_answers _ n s
  | compressO n => exact exec_compressO n s ▸ compressInto_answers _ n s
  | getX i => exact getElement_answers h.unitX.elementsExist i s
  | getN i => exact getElement_answers h.unitN.elementsExist i s
  | getO i => exact getElement_answers h.unitO.elementsExist i s
  | decompressX dlen => exact fillDestination_answers h.unitX.elementsExist dlen s
  | decompressN dlen => exact fillDestination_answers h.unitN.elementsExist dlen s
  | decompressO dlen => exact fillDestination_answers h.unitO.elementsExist dlen s

theorem step_answers {s : State} (h : s.Inv) : ∃ t, step s = .next t := by
  rcases step_cases s with heq | ⟨m, rest, heq, -⟩ | ⟨m, rest, heq, -⟩ | ⟨rest, heq⟩ | ⟨rest, heq⟩ | ⟨i, rest, heq⟩
  case inr.inr.inr.inr.inr => exact heq ▸ exec_answers (h.setHost rest) i
  all_goals exact ⟨_, heq⟩

/-- Settles O43: a step answers because every access is inside, and each access is inside by its unit's invariant. -/
theorem everyStepAnswers : Obligations.EveryStepAnswers := by
  intro s h
  refine ⟨step_answers h, fun i hi => ?_, fun i hi => ?_, fun i hi => ?_⟩
  · obtain ⟨f, hf, -⟩ := h.unitX.element_eq hi
    exact ⟨field_inside h.unitX.len hi, f, hf⟩
  · exact ⟨h.unitN.fieldsPerWord_pos, h.unitN.slot_inside hi⟩
  · obtain ⟨f, hf, -⟩ := h.unitO.field_eq hi
    exact ⟨field_inside h.unitO.len hi, f, hf, h.unitO.flagged_lt hi hf⟩

end Sys2Proof.Machine
end

section
/-! PROOFS. The decoder and the encoder are inverse to each other (R71 to R78): first the operand readings of R74
against the ARG words that give them back, then the fields of CMD against the word made of them, then the operations
of R73. -/

namespace Sys2Proof

open Sys2Proof.Machine

/-! ### The ARG word -/

@[simp] theorem argOfNat_zext32 (w : Word) : argOfNat (zext32 w) = w := by
  simp [argOfNat, zext32]

@[simp] theorem argOfInt_sext32 (w : Word) : argOfInt (sext32 w) = w := BitVec.ofInt_toInt

@[simp] theorem fitsZext_zext32 (w : Word) : fitsZext (zext32 w) = true := decide_eq_true w.isLt

theorem fitsSext_iff (i : Int) : fitsSext i = true ↔ -2147483648 ≤ i ∧ i < 2147483648 := by
  simp only [fitsSext, Bool.and_eq_true, decide_eq_true_eq]

@[simp] theorem fitsSext_sext32 (w : Word) : fitsSext (sext32 w) = true :=
  (fitsSext_iff _).mpr ⟨w.le_toInt, w.toInt_lt⟩

theorem zext32_argOfNat {v : Nat} (hfits : fitsZext v = true) : zext32 (argOfNat v) = v :=
  toNat_ofNat_word (of_decide_eq_true hfits)

theorem sext32_argOfInt {i : Int} (hfits : fitsSext i = true) : sext32 (argOfInt i) = i :=
  have ⟨hlow, hhigh⟩ := (fitsSext_iff i).mp hfits
  BitVec.toInt_ofInt_eq_self (by decide) hlow hhigh

/-! ### The CMD word -/

/-- The value of the `unit` field that selects a unit (R72): the inverse of `unitOfField` on two bits. -/
def UnitTag.field : UnitTag → Nat
  | .u => 0
  | .x => 1
  | .n => 2
  | .o => 3

theorem UnitTag.field_lt (tag : UnitTag) : tag.field < 4 := by cases tag <;> decide

theorem unitOfField_field (tag : UnitTag) : unitOfField tag.field = tag := by cases tag <;> rfl

theorem field_unitOfField {unit : Nat} (hunit : unit < 4) : (unitOfField unit).field = unit := by
  interval_cases unit <;> rfl

theorem fields_commandWord {unit op : Nat} (hunit : unit < 4) (hop : op < 16) :
    zeroField (commandWord unit op) = 0 ∧ unitField (commandWord unit op) = unit ∧
      opField (commandWord unit op) = op := by
  have hword : (commandWord unit op).toNat = unit * 16 + op := toNat_ofNat_word (by omega)
  simp only [zeroField, unitField, opField, hword]
  omega

theorem unitField_lt (cmd : Word) : unitField cmd < 4 := Nat.mod_lt _ (by decide)

/-- A CMD word with no bit of 31:6 set is the word made of its `unit` and `op`. -/
theorem commandWord_fields {cmd : Word} (hzero : zeroField cmd = 0) :
    commandWord (unitField cmd) (opField cmd) = cmd := by
  have hsum : unitField cmd * 16 + opField cmd = zext32 cmd := by
    simp only [zeroField, unitField, opField, zext32] at hzero ⊢
    omega
  rw [commandWord, hsum]
  exact argOfNat_zext32 cmd

/-- The word made of `unit` and `op` selects that operation of that unit. -/
theorem decode_commandWord (tag : UnitTag) {op : Nat} (hop : op < 16) (arg : Word) :
    decode (commandWord tag.field op) arg = decodeOp tag op arg := by
  obtain ⟨hzero, hunit, hopField⟩ := fields_commandWord tag.field_lt hop
  rw [decode, if_neg (not_not_intro hzero), hunit, hopField, unitOfField_field]

/-- Settles O1: each row's word is made of its `unit` and `op`, and R73 gives the operation. -/
theorem opcodeMapRowsDecode : Obligations.OpcodeMapRowsDecode := fun arg =>
  ⟨decode_commandWord .u (op := 0) (by decide) arg, decode_commandWord .u (op := 1) (by decide) arg,
    decode_commandWord .x (op := 0) (by decide) arg, decode_commandWord .x (op := 1) (by decide) arg,
    decode_commandWord .n (op := 2) (by decide) arg, decode_commandWord .n (op := 3) (by decide) arg,
    decode_commandWord .o (op := 2) (by decide) arg, decode_commandWord .o (op := 4) (by decide) arg⟩

/-! ### The operations -/

/-- The `op` of a command (R73); its unit is `unitOf`. -/
def opOf : Instr → Nat
  | .bitsNeeded _ => 0
  | .maskLow _ => 1
  | .createX _ | .createN _ | .createO _ => 0
  | .compressX _ | .compressN _ | .compressO _ => 1
  | .getX _ | .getN _ | .getO _ => 2
  | .decompressX _ | .decompressN _ | .decompressO _ => 3
  | .lengthX _ | .lengthN _ | .lengthO _ => 4

/-- The greatest `op` R73 gives a unit. -/
def UnitTag.lastOp : UnitTag → Nat
  | .u => 1
  | .x | .n | .o => 4

theorem UnitTag.lastOp_lt (tag : UnitTag) : tag.lastOp < 16 := by cases tag <;> decide

theorem opOf_le_lastOp (i : Instr) : opOf i ≤ (unitOf i).lastOp := by
  cases i <;> simp [opOf, unitOf, UnitTag.lastOp]

theorem encode_fst (i : Instr) : (encode i).1 = commandWord (unitOf i).field (opOf i) := by cases i <;> rfl

/-- The operation of a command's row reads its ARG word back, by the three readings of R74: ignored, `zext_32` and
`sext_32`. -/
theorem decodeOp_encode {i : Instr} (hwf : i.wellFormed = true) :
    decodeOp (unitOf i) (opOf i) (encode i).2 = .ok i := by
  cases i with
  | createX _ | createN _ | createO _ | lengthX _ | lengthN _ | lengthO _ => rfl
  | bitsNeeded _ | maskLow _ | compressX _ | compressN _ | compressO _ | decompressX _ | decompressN _
  | decompressO _ => simp only [unitOf, opOf, encode, decodeOp, zext32_argOfNat hwf]
  | getX _ | getN _ | getO _ => simp only [unitOf, opOf, encode, decodeOp, sext32_argOfInt hwf]

theorem decode_encode {i : Instr} (hwf : i.wellFormed = true) : decode (encode i).1 (encode i).2 = .ok i := by
  rw [encode_fst, decode_commandWord _ ((opOf_le_lastOp i).trans_lt (UnitTag.lastOp_lt _)), decodeOp_encode hwf]

/-- Settles O2: CMD selects the command's row, and the row's operation reads ARG back. -/
theorem decodeOfEncodeIsIdentity : Obligations.DecodeOfEncodeIsIdentity := fun _ => decode_encode

/-- What an operation of R73 gives is well formed, and its words are the ones it was read from: each arm of `decodeOp`
that answers a command reads ARG in one of the three ways, and each way keeps the whole word. -/
theorem encode_of_decodeOp {tag : UnitTag} {op : Nat} {arg : Word} {i : Instr} (hop : decodeOp tag op arg = .ok i) :
    encode i = (commandWord tag.field op, arg) ∧ i.wellFormed = true := by
  unfold decodeOp at hop
  split at hop <;> cases hop <;> simp [encode, UnitTag.field, Instr.wellFormed]

theorem encode_of_decode {cmd arg : Word} {i : Instr} (hdecode : decode cmd arg = .ok i) :
    encode i = (cmd, arg) ∧ i.wellFormed = true := by
  rw [decode] at hdecode
  split at hdecode
  next => cases hdecode
  next hzero =>
    obtain ⟨hwords, hwf⟩ := encode_of_decodeOp hdecode
    rw [field_unitOfField (unitField_lt cmd), commandWord_fields (not_not.mp hzero)] at hwords
    exact ⟨hwords, hwf⟩

/-- Settles O3: a word that decodes has no bit of 31:6 set, so its `unit` and `op` make it up again, and each operation
keeps every bit of ARG. -/
theorem encodeOfDecodeIsIdentity : Obligations.EncodeOfDecodeIsIdentity := fun _ _ _ => encode_of_decode

end Sys2Proof
end

section
/-! PROOFS. The words of the opcode map and the words outside it (R78, R79): a word decodes exactly when it is one of
the 17, and a step that takes another answers IllegalCommand. -/

namespace Sys2Proof.Machine

/-- The 17 words are made of the four units and the operations R73 gives each. -/
theorem commandWords_eq : commandWords =
    [UnitTag.u, .x, .n, .o].flatMap fun tag => (List.range (tag.lastOp + 1)).map (commandWord tag.field) := by
  decide

theorem mem_commandWords_iff {cmd : Word} :
    cmd ∈ commandWords ↔ ∃ tag op, op ≤ UnitTag.lastOp tag ∧ commandWord tag.field op = cmd := by
  have htag : ∀ tag : UnitTag, tag ∈ [UnitTag.u, .x, .n, .o] := fun tag => by cases tag <;> simp
  simp only [commandWords_eq, List.mem_flatMap, htag, true_and, List.mem_map, List.mem_range, Nat.lt_succ_iff]

/-- Inside the map, said of the fields: bits 31:6 are 0 and `op` is one R73 gives the unit. -/
theorem mem_commandWords_iff_fields {cmd : Word} :
    cmd ∈ commandWords ↔ zeroField cmd = 0 ∧ opField cmd ≤ (unitOfField (unitField cmd)).lastOp := by
  rw [mem_commandWords_iff]
  constructor
  · rintro ⟨tag, op, hop, rfl⟩
    obtain ⟨hzero, hunit, hopField⟩ := fields_commandWord tag.field_lt (hop.trans_lt tag.lastOp_lt)
    rw [hunit, hopField, unitOfField_field]
    exact ⟨hzero, hop⟩
  · rintro ⟨hzero, hop⟩
    refine ⟨_, _, hop, ?_⟩
    rw [field_unitOfField (unitField_lt cmd), commandWord_fields hzero]

theorem le_lastOp_unitOfField {unit op : Nat} (hunit : unit < 4) :
    op ≤ (unitOfField unit).lastOp ↔ op ≤ 1 ∨ unit ≠ 0 ∧ op ≤ 4 := by
  interval_cases unit <;> simp only [unitOfField, UnitTag.lastOp] <;> omega

theorem notMem_commandWords_iff (cmd : Word) : cmd ∉ commandWords ↔
    (cmd.toNat / 64 ≠ 0 ∨ (cmd.toNat / 16 = 0 ∧ 2 ≤ cmd.toNat % 16) ∨ 5 ≤ cmd.toNat % 16) := by
  rw [mem_commandWords_iff_fields, le_lastOp_unitOfField (unitField_lt cmd)]
  simp only [zeroField, unitField, opField]
  omega

/-- Every operation R73 gives a unit decodes, whatever ARG is (R74). -/
theorem decodeOp_ok_of_le {tag : UnitTag} {op : Nat} (hop : op ≤ tag.lastOp) (arg : Word) :
    ∃ i, decodeOp tag op arg = .ok i := by
  cases tag <;> simp only [UnitTag.lastOp] at hop
  all_goals interval_cases op <;> exact ⟨_, rfl⟩

theorem decode_ok_of_mem {cmd : Word} (hmem : cmd ∈ commandWords) (arg : Word) : ∃ i, decode cmd arg = .ok i := by
  obtain ⟨tag, op, hop, rfl⟩ := mem_commandWords_iff.mp hmem
  rw [decode_commandWord tag (hop.trans_lt tag.lastOp_lt)]
  exact decodeOp_ok_of_le hop arg

/-- What decodes is the words of a command, and a command's CMD word stands in the map. -/
theorem mem_commandWords_of_decode {cmd arg : Word} {i : Instr} (hdecode : decode cmd arg = .ok i) :
    cmd ∈ commandWords := by
  have hcmd : (encode i).1 = cmd := congrArg Prod.fst (encode_of_decode hdecode).1
  exact mem_commandWords_iff.mpr ⟨unitOf i, opOf i, opOf_le_lastOp i, (encode_fst i).symm.trans hcmd⟩

theorem State.receive_of_notMem {cmd : Word} (hmem : cmd ∉ commandWords) (s : State) (arg : Word) :
    s.receive cmd arg = .done (s.raise .illegalCommand) := by
  cases hdecode : decode cmd arg with
  | ok i => exact absurd (mem_commandWords_of_decode hdecode) hmem
  | error e => simp only [State.receive, hdecode]

theorem step_of_fetch_done {s t : State} (hfetch : s.fetch = .done t) : step s = .next t := by
  simp only [step, hfetch]

theorem step_illegal {s : State} {cmd arg : Word} {rest : List HostMove} (hhost : s.host = .issue cmd arg :: rest)
    (hmem : cmd ∉ commandWords) : step s = .next (({ s with host := rest } : State).raise .illegalCommand) :=
  step_of_fetch_done ((State.fetch_of_issue hhost).trans (State.receive_of_notMem hmem _ arg))

/-- Settles O7: the words of the map are the ones that decode, and receiving any other raises IllegalCommand. -/
theorem illegalWordsAnswered : Obligations.IllegalWordsAnswered :=
  ⟨by decide, rfl, rfl, notMem_commandWords_iff, fun _ _ _ _ hhost hmem => step_illegal hhost hmem,
    fun _ arg hmem => decode_ok_of_mem hmem arg⟩

end Sys2Proof.Machine
end

section
/-! PROOFS. An assembled line runs (R82): its moves write SRC one word per step, and then the command is issued. -/

namespace Sys2Proof.Machine

theorem core_run_of_step_next (M : Host.Core) {s t : M.State} (hstep : M.step s = .next t) (k : Nat) :
    M.run (k + 1) s = M.run k t := by
  rw [Host.Core.run, hstep]

theorem core_run_one (M : Host.Core) (s : M.State) : M.run 1 s = M.step s := by
  rw [Host.Core.run]
  cases M.step s <;> rfl

/-- One step per listed value writes it: together they are the consecutive writes `writeAll`. -/
theorem run_sourceMoves (vs : List Word) (s : State) (j k : Nat) (rest : List HostMove) :
    core.run (vs.length + k) { s with host := sourceMoves j vs ++ rest } =
      core.run k { s with src := s.src.writeAll j vs, host := rest } := by
  induction vs generalizing s j with
  | nil => rw [List.length_nil, Nat.zero_add, sourceMoves, List.nil_append, Memory.writeAll]
  | cons v vs ih =>
    have hstep : core.step ({ s with host := sourceMoves j (v :: vs) ++ rest } : State) =
        .next ({ s with src := s.src.write j v, host := sourceMoves (j + 1) vs ++ rest } : State) := rfl
    rw [List.length_cons, Nat.add_right_comm]
    exact (core_run_of_step_next core hstep _).trans (ih { s with src := s.src.write j v } (j + 1))

/-- With the words of a well-formed command next in the host's list, the step is the command's meaning. -/
theorem step_encode {i : Instr} (hwf : i.wellFormed = true) (s : State) (rest : List HostMove) :
    step { s with host := .issue (encode i).1 (encode i).2 :: rest } = exec i { s with host := rest } :=
  stepRunsDecodedCommand _ _ _ rest i rfl (decode_encode hwf)

theorem AsmLine.run_moves {l : AsmLine} (hwf : l.instr.wellFormed = true) (s : State) (rest : List HostMove) :
    core.run (l.values.length + 1) { s with host := l.moves ++ rest } =
      exec l.instr { s with src := s.src.writeAll 0 l.values, host := rest } := by
  rw [AsmLine.moves, List.append_assoc, run_sourceMoves]
  exact (core_run_one core _).trans (step_encode hwf { s with src := s.src.writeAll 0 l.values } rest)

/-- Settles O6: the writes leave `writeAll` from index 0 on in SRC, which `read_writeAll` reads, and the issued words
decode to the line's command. -/
theorem assembledLineRuns : Obligations.AssembledLineRuns := by
  intro s l rest hwf
  refine ⟨s.src.writeAll 0 l.values, fun j hj => ?_, fun j hj => ?_, AsmLine.run_moves hwf s rest⟩
  · rw [Memory.read_writeAll, if_pos (by omega), Nat.sub_zero]
  · rw [Memory.read_writeAll, if_neg (by omega)]

end Sys2Proof.Machine
end

section
/-! PROOFS. The two functions of unit U (R90 to R97): `bitsNeeded` against powers of two and a running maximum, and
`maskLow` bit by bit and as a mask. -/

namespace Sys2Proof.Machine

/-! ### bitsNeeded -/

theorem bitsNeeded_of_pos {v : Nat} (hpos : 1 ≤ v) : bitsNeeded v = 1 + Nat.log2 v :=
  if_neg (Nat.ne_of_gt hpos)

theorem lt_bitsNeeded_iff (v b : Nat) : b < bitsNeeded v ↔ 2 ^ b ≤ v := by
  rw [← not_le, bitsNeeded_le_iff, not_lt]

@[simp] theorem bitsNeeded_two_pow (m : Nat) : bitsNeeded (2 ^ m) = m + 1 := by
  rw [bitsNeeded_of_pos Nat.one_le_two_pow, Nat.log2_two_pow, Nat.add_comm]

/-- The values that fit `b` bits, by their greatest (R97). -/
theorem bitsNeeded_le_iff_le_pred (v b : Nat) : bitsNeeded v ≤ b ↔ v ≤ 2 ^ b - 1 := by
  rw [bitsNeeded_le_iff, Nat.lt_iff_le_pred (Nat.two_pow_pos b)]

@[simp] theorem bitsNeeded_two_pow_sub_one (m : Nat) : bitsNeeded (2 ^ m - 1) = m :=
  eq_of_forall_ge_iff fun b =>
    calc bitsNeeded (2 ^ m - 1) ≤ b
      _ ↔ 2 ^ m - 1 ≤ 2 ^ b - 1 := bitsNeeded_le_iff_le_pred _ b
      _ ↔ 2 ^ m ≤ 2 ^ b := Nat.sub_le_sub_iff_right Nat.one_le_two_pow
      _ ↔ m ≤ b := Nat.pow_le_pow_iff_right (by decide)

theorem two_pow_pred_bitsNeeded_le {v : Nat} (hpos : 1 ≤ v) : 2 ^ (bitsNeeded v - 1) ≤ v := by
  rw [← lt_bitsNeeded_iff, bitsNeeded_of_pos hpos]
  omega

/-- A monotone function that is 0 at 0 commutes with the running maximum. -/
theorem map_maxOf {f : Nat → Nat} (hmono : Monotone f) (hzero : f 0 = 0) (vs : List Nat) :
    f (maxOf vs) = maxOf (vs.map f) := by
  rw [maxOf, maxOf, List.foldl_map, ← List.foldl_hom f (g₂ := fun a v => max a (f v)) fun _ _ => hmono.map_max.symm,
    hzero]

/-- Settles O8: everything but the logarithm form and the powers of two is that the width fits exactly when it is
large enough. -/
theorem bitsNeededIsLeastWidth : Obligations.BitsNeededIsLeastWidth :=
  ⟨bitsNeeded_zero, fun _ => bitsNeeded_of_pos,
    fun v => ⟨lt_pow_bitsNeeded v, fun b => (bitsNeeded_le_iff v b).mpr⟩,
    fun m => ⟨bitsNeeded_two_pow_sub_one m, bitsNeeded_two_pow m⟩,
    fun v => (bitsNeeded_le_iff v 32).mpr,
    fun v hcount => (bitsNeeded_le_iff v 31).mpr (hcount.trans_le (Nat.sub_le _ _))⟩

/-! ### maskLow -/

theorem maskLow_of_le {k : Nat} (hk : k ≤ 31) : maskLow k = BitVec.ofNat 32 (2 ^ k - 1) := if_pos hk

theorem maskLow_of_ge {k : Nat} (hk : 32 ≤ k) : maskLow k = 0xFFFFFFFF := if_neg (Nat.not_le_of_lt hk)

theorem getLsbD_maskLow (k : Nat) {b : Nat} (hb : b < 32) : (maskLow k).getLsbD b = decide (b < k) := by
  rw [BitVec.getLsbD, toNat_maskLow, Nat.testBit_two_pow_sub_one, decide_eq_decide, lt_min_iff]
  exact and_iff_left hb

/-- Masking with `k` bits keeps a word exactly when it fits them (R96). -/
theorem and_maskLow_eq_self_iff (v : Word) (k : Nat) : v &&& maskLow k = v ↔ bitsNeeded v.toNat ≤ k := by
  rw [← BitVec.toNat_inj, toNat_and_maskLow, Nat.mod_eq_iff_lt (Nat.two_pow_pos k).ne', bitsNeeded_le_iff]

/-- Settles O9: the mask is `2^min(k, 32) - 1`, and the bits of one less than a power of two are known. -/
theorem maskLowSetsLowBits : Obligations.MaskLowSetsLowBits := by
  refine ⟨fun k hk => ?_, fun k hk => ?_, fun k _ => getLsbD_maskLow k⟩
  · rw [toNat_maskLow, Nat.min_eq_left (by omega)]
  · rw [toNat_maskLow, Nat.min_eq_right hk]

/-- Settles O10: a word fits the mask exactly when its width does, and the width is monotone with 0 at 0, so it passes
through a maximum. -/
theorem bitUtilityLaws : Obligations.BitUtilityLaws :=
  ⟨lt_pow_bitsNeeded, fun _ => two_pow_pred_bitsNeeded_le, fun _ _ => bitsNeeded_mono,
    map_maxOf (fun _ _ => bitsNeeded_mono) bitsNeeded_zero,
    fun v k => (and_maskLow_eq_self_iff v k).mpr,
    fun v k hfew hkeeps => Nat.not_le_of_lt hfew ((and_maskLow_eq_self_iff v k).mp hkeeps),
    fun v k => (bitsNeeded_le_iff_le_pred v k).symm, fun _ => Nat.le_zero⟩

end Sys2Proof.Machine
end

section
/-! PROOFS. The commands of unit U, from their words to their response (R94, R95). -/

namespace Sys2Proof.Machine

theorem exec_bitsNeeded_inside {s : State} {v : Nat} (hin : v < 2 ^ s.params.width) :
    exec (.bitsNeeded v) s = .next (s.reply (BitVec.ofNat 32 (bitsNeeded v))) :=
  if_pos ((inDomain_iff s.params v).mpr hin)

theorem exec_bitsNeeded_outside {s : State} {v : Nat} (hout : 2 ^ s.params.width ≤ v) :
    exec (.bitsNeeded v) s = .next (s.raise .invalidArgument) :=
  if_neg ((inDomain_iff s.params v).not.mpr (Nat.not_lt_of_le hout))

theorem exec_maskLow (k : Nat) (s : State) : exec (.maskLow k) s = .next (s.reply (maskLow k)) := rfl

/-- Settles O11: the command tests the domain of R5, and `reply` and `raise` write the response alone. -/
theorem bitsNeededCommand : Obligations.BitsNeededCommand :=
  ⟨fun arg => (opcodeMapRowsDecode arg).1, fun _ _ => exec_bitsNeeded_inside, fun _ _ => exec_bitsNeeded_outside⟩

/-- Settles O12: the command replies the mask of any width, which is all ones from 32 on. -/
theorem maskLowCommand : Obligations.MaskLowCommand := by
  refine ⟨fun arg => (opcodeMapRowsDecode arg).2.1, fun s k hk => ?_, fun s k hk => ?_⟩
  · rw [exec_maskLow, maskLow_of_le hk, State.reply]
  · rw [exec_maskLow, maskLow_of_ge hk, State.reply]

end Sys2Proof.Machine
end

section
/-! PROOFS. `write_field` and `read_field` (R106 to R111): a write as one or two ORs into words, the words it touches,
read after write, and fields written in any order. -/

namespace Sys2Proof.Machine

/-! ### ORs into words -/

theorem orWord_zero (B : List Word) (j : Nat) : orWord B j 0 = B := by
  have hid : (fun x : Word => x ||| BitVec.ofNat 32 0) = id := funext fun _ => BitVec.or_zero
  rw [orWord, hid, List.modify_id]

theorem getElem?_orWord_of_ne (B : List Word) {i j : Nat} (x : Nat) (hne : i ≠ j) : (orWord B j x)[i]? = B[i]? :=
  List.getElem?_modify_ne _ B hne.symm

theorem orWord_comm (B : List Word) (i j x y : Nat) : orWord (orWord B i x) j y = orWord (orWord B j y) i x := by
  by_cases hij : i = j
  · subst hij
    simp only [orWord, List.modify_modify_eq]
    congr 1
    funext b
    simp only [Function.comp_apply, BitVec.or_assoc, BitVec.or_comm (BitVec.ofNat 32 x)]
  · exact List.modify_modify_ne _ _ B hij

/-! ### The two cases of a write (R106) -/

/-- A field of width 0 fits too: its OR changes nothing (R107). -/
theorem writeField_of_fits (B : List Word) {p w : Nat} (v : Nat) (hfit : p % 32 + w ≤ 32) :
    writeField B p w v = orWord B (p / 32) ((v % 2 ^ w) <<< (p % 32)) := by
  by_cases hw : w = 0
  · rw [hw, Nat.pow_zero, Nat.mod_one, Nat.zero_shiftLeft, orWord_zero]
    exact if_pos rfl
  · rw [writeField, if_neg hw]
    exact if_pos hfit

theorem writeField_of_split (B : List Word) {p w : Nat} (v : Nat) (hsplit : 32 < p % 32 + w) :
    writeField B p w v =
      orWord (orWord B (p / 32) ((v % 2 ^ w % 2 ^ (32 - p % 32)) <<< (p % 32))) (p / 32 + 1)
        ((v % 2 ^ w) >>> (32 - p % 32)) := by
  rw [writeField, if_neg (show w ≠ 0 by omega)]
  exact if_neg (Nat.not_le_of_lt hsplit)

/-! ### The words a write touches (R108) -/

theorem getElem?_writeField_of_fits (B : List Word) {p w j : Nat} (v : Nat) (hfit : p % 32 + w ≤ 32)
    (hword : j ≠ p / 32) : (writeField B p w v)[j]? = B[j]? := by
  rw [writeField_of_fits B v hfit, getElem?_orWord_of_ne B _ hword]

theorem getElem?_writeField_of_ne (B : List Word) {p w j : Nat} (v : Nat) (hword : j ≠ p / 32)
    (hnext : j ≠ p / 32 + 1) : (writeField B p w v)[j]? = B[j]? := by
  rcases le_or_gt (p % 32 + w) 32 with hfit | hsplit
  · exact getElem?_writeField_of_fits B v hfit hword
  · rw [writeField_of_split B v hsplit, getElem?_orWord_of_ne _ _ hnext, getElem?_orWord_of_ne B _ hword]

/-- Settles O15: the field ORs into word `p / 32`, and into the next word only when it splits; the offset is at most
31 and the width at most 33. -/
theorem fieldLiesInTwoWords : Obligations.FieldLiesInTwoWords := by
  intro B p w v hw
  have hoffset : p % 32 < 32 := Nat.mod_lt p (by decide)
  exact ⟨by omega, fun j => getElem?_writeField_of_ne B v, fun hfit j => getElem?_writeField_of_fits B v hfit,
    fun hsplit => ⟨by omega, by omega⟩⟩

/-! ### Read after write (R110) -/

theorem readField_writeField_of_zero {B : List Word} {p w : Nat} (v : Nat) (hw : w ≤ 33)
    (hinside : p + w ≤ 32 * B.length) (hzero : ∀ q, p ≤ q → q < p + w → bufBit B q = false) :
    readField (writeField B p w v) p w = some (v % 2 ^ w) := by
  refine readField_eq_mod _ p w v hw (by rwa [length_writeField]) fun b hb => ?_
  rw [bufBit_writeField B p w v _ hw hinside, hzero (p + b) (by omega) (by omega), decide_eq_true (by omega),
    Bool.false_or, Bool.true_and, Nat.add_sub_cancel_left]

theorem bufBit_writeField_of_outside {B : List Word} {p w q : Nat} (v : Nat) (hw : w ≤ 33)
    (hinside : p + w ≤ 32 * B.length) (hout : q < p ∨ p + w ≤ q) :
    bufBit (writeField B p w v) q = bufBit B q := by
  rw [bufBit_writeField B p w v q hw hinside, decide_eq_false (by omega), Bool.false_and, Bool.or_false]

/-- Settles O13: the write ORs the field's bits into its own range, so over zero bits they are what is read. -/
theorem fieldReadAfterWrite : Obligations.FieldReadAfterWrite :=
  fun B p w v hw hinside => ⟨readField_writeField_of_zero v hw hinside,
    fun _ => bufBit_writeField_of_outside v hw hinside, length_writeField B p w v⟩

/-! ### Fields in any order (R111) -/

theorem writeField_orWord (B : List Word) (j x p w v : Nat) :
    writeField (orWord B j x) p w v = orWord (writeField B p w v) j x := by
  rcases le_or_gt (p % 32 + w) 32 with hfit | hsplit
  · rw [writeField_of_fits _ v hfit, writeField_of_fits B v hfit, orWord_comm]
  · rw [writeField_of_split _ v hsplit, writeField_of_split B v hsplit, orWord_comm B, orWord_comm _ j]

/-- Two writes commute, even where their fields meet, since each only ORs into words. -/
theorem writeField_comm (B : List Word) (p₁ w₁ v₁ p₂ w₂ v₂ : Nat) :
    writeField (writeField B p₁ w₁ v₁) p₂ w₂ v₂ = writeField (writeField B p₂ w₂ v₂) p₁ w₁ v₁ := by
  rcases le_or_gt (p₁ % 32 + w₁) 32 with hfit | hsplit
  · rw [writeField_of_fits B v₁ hfit, writeField_of_fits _ v₁ hfit, writeField_orWord]
  · rw [writeField_of_split B v₁ hsplit, writeField_of_split _ v₁ hsplit, writeField_orWord, writeField_orWord]

/-- The write of field `i` alone, of the fields `v 0`, `v 1`, ... that stand end to end, each `w` bits wide (R111). -/
def writeFieldAt (w : Nat) (v : Nat → Nat) (B : List Word) (i : Nat) : List Word := writeField B (i * w) w (v i)

theorem foldl_writeFieldAt_perm {w : Nat} {v : Nat → Nat} {is js : List Nat} (hperm : is.Perm js) (B : List Word) :
    is.foldl (writeFieldAt w v) B = js.foldl (writeFieldAt w v) B :=
  hperm.foldl_eq' (fun i _ j _ B => writeField_comm B (i * w) w (v i) (j * w) w (v j)) B

theorem foldl_writeFieldAt_range' (w : Nat) (v : Nat → Nat) (i n : Nat) (B : List Word) :
    (List.range' i n).foldl (writeFieldAt w v) B = writeFields w i ((List.range' i n).map v) B := by
  induction n generalizing i B with
  | zero => rfl
  | succ n ih =>
    rw [List.range'_succ, List.foldl_cons, List.map_cons, writeFields]
    exact ih (i + 1) (writeField B (i * w) w (v i))

theorem foldl_writeFieldAt_range (w : Nat) (v : Nat → Nat) (n : Nat) (B : List Word) :
    (List.range n).foldl (writeFieldAt w v) B = writeFields w 0 ((List.range n).map v) B := by
  rw [List.range_eq_range', foldl_writeFieldAt_range']

/-- A bit position in field `i` determines `i`. -/
theorem div_eq_of_mem_field {i w q : Nat} (hlo : i * w ≤ q) (hhi : q < i * w + w) : q / w = i :=
  Nat.div_eq_of_lt_le hlo (by rwa [Nat.succ_mul])

/-- Settles O14: writes commute, so any order gives the buffer of `writeFields`, which is read field by field. -/
theorem fieldsDoNotInterfere : Obligations.FieldsDoNotInterfere := by
  intro n w len v order hw hinside hperm B
  have horder : B = (List.range n).foldl (writeFieldAt w v) (zeroBuffer len) :=
    foldl_writeFieldAt_perm hperm (zeroBuffer len)
  have hascending : B = writeFields w 0 ((List.range n).map v) (zeroBuffer len) :=
    horder.trans (foldl_writeFieldAt_range w v n _)
  have hlength : ((List.range n).map v).length = n := by rw [List.length_map, List.length_range]
  have hfit : ((List.range n).map v).length * w ≤ 32 * len := by rwa [hlength]
  refine ⟨fun i j q hne hlo hhi ⟨hlo', hhi'⟩ => ?_, fun i hi => ?_, fun q hq => ?_, horder⟩
  · exact hne ((div_eq_of_mem_field hlo hhi).symm.trans (div_eq_of_mem_field hlo' hhi'))
  · rw [hascending, readField_writeFields w _ len i hw hfit (by rwa [hlength]), List.getElem_map, List.getElem_range]
  · rw [hascending]
    exact bufBit_writeFields_tail w _ len q hw hfit (by rwa [hlength])

end Sys2Proof.Machine
end

section
/-! PROOFS. CREATE and LENGTH of the three units (R120, R124, R135, R140, R155, R161), and what the shared `compress`
does with a sequence it accepts and with any other (R191, R195). -/

namespace Sys2Proof.Machine

/-- Settles O17: each CREATE installs its unit's reset state and answers, and a structure update is its own frame. -/
theorem createResetsItsUnit : Obligations.CreateResetsItsUnit :=
  ⟨fun arg => ⟨decode_commandWord .x (op := 0) (by decide) arg, decode_commandWord .n (op := 0) (by decide) arg,
    decode_commandWord .o (op := 0) (by decide) arg⟩, fun _ _ => ⟨rfl, rfl, rfl⟩⟩

theorem compressInto_of_accepted (install : State → List Word → State) {s : State} {n : Nat}
    (haccepted : sourceAccepted s n) :
    compressInto install n s = .next ((install s (s.source n)).reply 0) :=
  if_pos ((s.accepts_iff n).mpr haccepted)

theorem compressInto_of_not_accepted (install : State → List Word → State) {s : State} {n : Nat}
    (hrejected : ¬ sourceAccepted s n) : compressInto install n s = .next (s.raise .invalidArgument) :=
  if_neg ((s.accepts_iff n).not.mpr hrejected)

section
variable {s : State} {n : Nat}

theorem exec_compressX_of_accepted (haccepted : sourceAccepted s n) : exec (.compressX n) s =
    .next (({ s with unitX := packX (s.source n) } : State).reply 0) := by
  rw [exec_compressX, compressInto_of_accepted _ haccepted]

theorem exec_compressN_of_accepted (haccepted : sourceAccepted s n) : exec (.compressN n) s =
    .next (({ s with unitN := packN (s.source n) } : State).reply 0) := by
  rw [exec_compressN, compressInto_of_accepted _ haccepted]

theorem exec_compressX_of_not_accepted (hrejected : ¬ sourceAccepted s n) :
    exec (.compressX n) s = .next (s.raise .invalidArgument) := by
  rw [exec_compressX, compressInto_of_not_accepted _ hrejected]

theorem exec_compressN_of_not_accepted (hrejected : ¬ sourceAccepted s n) :
    exec (.compressN n) s = .next (s.raise .invalidArgument) := by
  rw [exec_compressN, compressInto_of_not_accepted _ hrejected]

theorem exec_compressO_of_not_accepted (hrejected : ¬ sourceAccepted s n) :
    exec (.compressO n) s = .next (s.raise .invalidArgument) := by
  rw [exec_compressO, compressInto_of_not_accepted _ hrejected]

end

/-- The two causes for which COMPRESS rejects (R191). -/
theorem not_sourceAccepted_iff (s : State) (n : Nat) : ¬ sourceAccepted s n ↔
    s.params.nmax < n ∨ ∃ j, j < n ∧ 2 ^ s.params.width ≤ (s.readSrc j).toNat := by
  simp only [sourceAccepted, Classical.not_and_iff_not_or_not, not_forall, exists_prop, not_le, not_lt]

/-- Settles O18: LENGTH replies its unit's `n`; CREATE and the empty COMPRESS install the reset unit, and a rejected
COMPRESS only raises. -/
theorem lengthReturnsCount : Obligations.LengthReturnsCount := by
  refine ⟨fun arg => ⟨decode_commandWord .x (op := 4) (by decide) arg, decode_commandWord .n (op := 4) (by decide) arg,
      decode_commandWord .o (op := 4) (by decide) arg⟩,
    fun _ _ => ⟨rfl, rfl, rfl⟩, ⟨rfl, rfl, rfl⟩, fun s _ => ?_, fun s n hcause => ?_⟩
  · exact ⟨⟨_, rfl, rfl⟩, ⟨_, rfl, rfl⟩, ⟨_, rfl, rfl⟩, ⟨_, exec_compressX_zero s, rfl⟩,
      ⟨_, exec_compressN_zero s, rfl⟩, ⟨_, exec_compressO_zero s, rfl⟩⟩
  · have hrejected := (not_sourceAccepted_iff s n).mpr hcause
    exact ⟨⟨_, exec_compressX_of_not_accepted hrejected, rfl⟩, ⟨_, exec_compressN_of_not_accepted hrejected, rfl⟩,
      ⟨_, exec_compressO_of_not_accepted hrejected, rfl⟩⟩

end Sys2Proof.Machine
end

section
/-! PROOFS. COMPRESS.X of an accepted sequence, bit by bit (R121). -/

namespace Sys2Proof.Machine

theorem sourceAccepted.inv_packX {s : State} {n : Nat} (haccepted : sourceAccepted s n) :
    (packX (s.source n)).Inv s.params :=
  have ⟨hlength, hdomain⟩ := State.accepts_source ((s.accepts_iff n).mpr haccepted)
  packX_inv s.params _ hlength hdomain

theorem sourceAccepted.length_lt {s : State} {n : Nat} (haccepted : sourceAccepted s n) :
    (s.source n).length < 2 ^ 32 := by
  have hnmax := s.params.nmax_le
  have hn := haccepted.1
  rw [State.length_source]
  omega

theorem sourceAccepted.packX_n {s : State} {n : Nat} (haccepted : sourceAccepted s n) :
    (packX (s.source n)).n.toNat = n :=
  (Machine.packX_n haccepted.length_lt).trans (s.length_source n)

theorem sourceAccepted.packN_n {s : State} {n : Nat} (haccepted : sourceAccepted s n) :
    (packN (s.source n)).n.toNat = n :=
  (Machine.packN_n haccepted.length_lt).trans (s.length_source n)

@[simp] theorem State.getElem_source_eq (s : State) {n i : Nat} (hi : i < (s.source n).length) :
    (s.source n)[i] = s.readSrc i := by
  simp only [State.source, List.getElem_map, List.getElem_range]

/-- Bit `b` of field `i` is bit `b` of value `i`: what `read_field` answers has the field's bits. -/
theorem bufBit_packX {vs : List Word} {i b : Nat} (hi : i < vs.length) (hb : b < fieldWidth vs) :
    bufBit (packX vs).buf (i * fieldWidth vs + b) = vs[i].getLsbD b := by
  have hbits := testBit_readField _ _ _ _ b (readField_packX vs i hi)
  rw [decide_eq_true hb, Bool.true_and] at hbits
  exact hbits.symm

/-- Settles O19: the unit COMPRESS.X installs is `packX` of the source; its fields are read back bit by bit, and past
them is the zero tail of R23. -/
theorem compressXPacksEndToEnd : Obligations.CompressXPacksEndToEnd := by
  refine ⟨fun arg => decode_commandWord .x (op := 1) (by decide) arg, fun s n haccepted => ?_,
    fun _ _ => exec_compressX_of_not_accepted⟩
  refine ⟨packX (s.source n), exec_compressX_of_accepted haccepted, haccepted.packX_n, packX_k _, ?_,
    fun i hi => ?_, ?_, ?_⟩
  · rw [packX_k, packX_length, State.length_source]
  · have hi' : i < (s.source n).length := by rwa [State.length_source]
    rw [packX_k, ← State.getElem_source_eq s hi']
    exact ⟨lt_pow_fieldWidth (List.getElem_mem hi'), fun b hb => bufBit_packX hi' hb⟩
  · have htail := haccepted.inv_packX.tail
    rwa [haccepted.packX_n] at htail
  · rintro rfl
    rw [State.source_zero, packX_nil]

end Sys2Proof.Machine
end

section
/-! PROOFS. GET.X and DECOMPRESS.X in every state with unit X's invariants (R122, R123), and what the shared `get` and
`decompress` answer when the elements can be read. -/

namespace Sys2Proof.Machine

theorem getElement_of_eq_some {n : Word} {element : Nat → Option Word} {i : Nat} {w : Word} (s : State)
    (hi : i < n.toNat) (helement : element i = some w) : getElement n element i s = .next (s.reply w) := by
  rw [getElement_inside element s hi, helement, State.answer]

theorem fillDestination_of_ne {n : Word} {dlen : Nat} (element : Nat → Option Word) (s : State)
    (hlength : dlen ≠ n.toNat) : fillDestination n element dlen s = .next (s.raise .invalidArgument) :=
  if_pos hlength

/-- DECOMPRESS of a sequence whose elements can be read puts them at the first `n` words of DST and leaves the others
(R52). -/
theorem fillDestination_of_elementsExist {n : Word} {element : Nat → Option Word} (s : State)
    (helements : ElementsExist n element) : ∃ m : Memory,
    fillDestination n element n.toNat s = .next (({ s with dst := m } : State).reply 0) ∧
      (∀ i, i < n.toNat → m.read i = element i) ∧ ∀ j, n.toNat ≤ j → m.read j = s.dst.read j := by
  rcases fillDestination_cases n element n.toNat s with ⟨hne, -⟩ | ⟨-, ws, hcollect, heq⟩ | ⟨-, -, hfault⟩
  · exact absurd rfl hne
  · obtain ⟨hlength, hwords⟩ := (collect_eq_some element 0 n.toNat ws).mp hcollect
    refine ⟨s.dst.writeAll 0 ws, heq, fun i hi => ?_, fun j hj => ?_⟩
    · rw [Memory.read_writeAll, if_pos (by omega), Nat.sub_zero, ← hwords i hi, Nat.zero_add]
    · rw [Memory.read_writeAll, if_neg (by omega)]
  · obtain ⟨t, hanswers⟩ := fillDestination_answers helements n.toNat s
    rw [hfault] at hanswers
    cases hanswers

theorem exec_decompressX (dlen : Nat) (s : State) :
    exec (.decompressX dlen) s = fillDestination s.unitX.n s.unitX.element dlen s := rfl

/-- With unit X's invariants GET.X replies the field that `read_field` gives. -/
theorem XUnit.Inv.exec_getX {p : Params} {s : State} (h : s.unitX.Inv p) {i : Nat} (hi : i < s.unitX.n.toNat) :
    ∃ v, readField s.unitX.buf (i * s.unitX.k.toNat) s.unitX.k.toNat = some v ∧ v < 2 ^ s.unitX.k.toNat ∧
      s.unitX.element i = some (BitVec.ofNat 32 v) ∧ exec (.getX i) s = .next (s.reply (BitVec.ofNat 32 v)) :=
  have ⟨v, hread, hlt, helement⟩ := h.element_eq hi
  ⟨v, hread, hlt, helement, getElement_of_eq_some s hi helement⟩

/-- Settles O29: the field read is below `2^k`, and `k` is at most 32. -/
theorem getXReturnsField : Obligations.GetXReturnsField := by
  refine ⟨fun arg => decode_commandWord .x (op := 2) (by decide) arg,
    fun s i hout => getElement_outside s.unitX.element s hout, fun s i h hi => ?_⟩
  obtain ⟨v, hread, hlt, -, hget⟩ := h.exec_getX hi
  have hk : s.unitX.k.toNat ≤ 32 := h.k_le.trans (Nat.min_le_left _ _)
  refine ⟨v, hread, hlt, hlt.trans_le (Nat.pow_le_pow_right (by decide) hk), fun hzero => ?_, hget⟩
  rw [hzero, Nat.pow_zero] at hlt
  exact Nat.lt_one_iff.mp hlt

/-- Settles O34: each word put in DST is the element GET.X replies. -/
theorem decompressXFillsDestination : Obligations.DecompressXFillsDestination := by
  refine ⟨fun arg => decode_commandWord .x (op := 3) (by decide) arg,
    fun s dlen hlength => fillDestination_of_ne s.unitX.element s hlength, fun s h => ?_⟩
  obtain ⟨m, hfill, hinside, houtside⟩ := fillDestination_of_elementsExist s h.elementsExist
  refine ⟨m, hfill, fun i hi => ?_, houtside⟩
  obtain ⟨v, hread, -, helement, hget⟩ := h.exec_getX hi
  exact ⟨v, hread, (hinside i hi).trans helement, hget⟩

end Sys2Proof.Machine
end

section
/-! PROOFS. What COMPRESS.X packed, GET.X, DECOMPRESS.X and LENGTH.X return (R125). -/

namespace Sys2Proof.Machine

/-- Element `i` of the packed source is the source word. -/
theorem element_packX_source (s : State) {n i : Nat} (hi : i < n) :
    (packX (s.source n)).element i = some (s.readSrc i) := by
  rw [element_packX _ i (by rwa [State.length_source]), State.getElem_source_eq]

/-- Settles O37: a successful COMPRESS.X left `packX` of an accepted source, whose elements are the source words; the
clamp of its width is without effect (C4). -/
theorem crossWordRoundTrip : Obligations.CrossWordRoundTrip := by
  intro s t u n hcompress hok hunit
  rw [exec_compressX] at hcompress
  obtain ⟨haccepts, rfl⟩ := compressInto_ok hok hcompress
  have haccepted : sourceAccepted s n := (s.accepts_iff n).mp haccepts
  change u.unitX = packX (s.source n) at hunit
  have hn : u.unitX.n.toNat = n := hunit ▸ haccepted.packX_n
  have helement : ∀ i, i < n → u.unitX.element i = some (s.readSrc i) := fun i hi =>
    hunit ▸ element_packX_source s hi
  have hinv : u.unitX.Inv s.params := hunit ▸ haccepted.inv_packX
  refine ⟨fun i hi => getElement_of_eq_some u (hn.symm ▸ hi) (helement i hi), ?_, fun arg => ?_, ?_, ?_⟩
  · obtain ⟨m, hfill, hinside, houtside⟩ := fillDestination_of_elementsExist u hinv.elementsExist
    rw [hn] at hfill hinside houtside
    exact ⟨m, hfill, fun i hi => (hinside i hi).trans (helement i hi), houtside⟩
  · have hcount : u.unitX.n = BitVec.ofNat 32 n := by rw [← hn, BitVec.ofNat_toNat, BitVec.setWidth_eq]
    rw [← hcount]
    rfl
  · exact (packX_k _).trans (fieldWidth_eq _)
  · rw [State.reply_unitX, packX_k, packX_length, State.length_source]

end Sys2Proof.Machine
end

section
/-! PROOFS. Boundary widths (R126): the all-zero sequence, and the greatest value of the domain. -/

namespace Sys2Proof.Machine

/-! ### Width 0 -/

/-- The maximum of zeros is 0, since it is 0 or one of them. -/
theorem fieldWidth_source_of_zero {s : State} {n : Nat} (hzero : ∀ j, j < n → s.readSrc j = 0) :
    fieldWidth (s.source n) = 0 := by
  have hmax : maxOf ((s.source n).map BitVec.toNat) = 0 := by
    refine (maxOf_mem _).elim id fun hmem => ?_
    obtain ⟨v, hv, heq⟩ := List.mem_map.mp hmem
    obtain ⟨j, hj, rfl⟩ := List.mem_map.mp hv
    rw [← heq, hzero j (List.mem_range.mp hj)]
    rfl
  rw [fieldWidth_eq, hmax, bitsNeeded_zero]

theorem sourceAccepted_of_zero {s : State} {n : Nat} (hn : n ≤ s.params.nmax)
    (hzero : ∀ j, j < n → s.readSrc j = 0) : sourceAccepted s n :=
  ⟨hn, fun j hj => by
    rw [hzero j hj]
    exact Nat.two_pow_pos _⟩

/-- No bits, no words. -/
theorem packX_buf_eq_nil {vs : List Word} (hwidth : fieldWidth vs = 0) : (packX vs).buf = [] := by
  refine List.eq_nil_of_length_eq_zero ?_
  rw [packX_length, hwidth, Nat.mul_zero]
  rfl

/-- Element `i` of the packed source of unit N is the source word. -/
theorem element_packN_source (s : State) {n i : Nat} (hi : i < n) :
    (packN (s.source n)).element i = some (s.readSrc i) := by
  rw [element_packN _ i (by rwa [State.length_source]), State.getElem_source_eq]

/-! ### One value -/

@[simp] theorem source_one (s : State) : s.source 1 = [s.readSrc 0] := rfl

@[simp] theorem fieldWidth_singleton (v : Word) : fieldWidth [v] = bitsNeeded v.toNat := by
  rw [fieldWidth_eq, List.map_singleton, maxOf, List.foldl_cons, List.foldl_nil, Nat.zero_max]

theorem and_maskLow_bitsNeeded (v : Word) : v &&& maskLow (bitsNeeded v.toNat) = v :=
  (and_maskLow_eq_self_iff v _).mpr le_rfl

theorem orWord_zero_singleton (v : Word) : orWord [0] 0 v.toNat = [v] := by
  simp [orWord]

theorem ceilDiv_eq_one {a b : Nat} (hpos : 0 < a) (hle : a ≤ b) : ceilDiv a b = 1 :=
  Nat.div_eq_of_lt_le (by omega) (by omega)

/-- A field of at least one bit at the bottom of one word is the word itself. -/
theorem packX_singleton_buf {v : Word} (hpos : 0 < bitsNeeded v.toNat) : (packX [v]).buf = [v] := by
  have hk := bitsNeeded_word_le v
  have hlen : ceilDiv (1 * bitsNeeded v.toNat) 32 = 1 := ceilDiv_eq_one (by omega) (by omega)
  simp only [packX, List.length_singleton, fieldWidth_singleton, hlen, List.map_singleton, and_maskLow_bitsNeeded,
    writeFields]
  rw [Nat.zero_mul, writeField_of_fits _ _ (by omega), Nat.mod_eq_of_lt (lt_pow_bitsNeeded _)]
  exact orWord_zero_singleton v

/-- Slot 0 of one word is the word itself. -/
theorem packN_singleton_buf (v : Word) : (packN [v]).buf = [v] := by
  have hlen : ceilDiv 1 (fieldsPerWord (bitsNeeded v.toNat)) = 1 :=
    ceilDiv_eq_one (by decide) (fieldsPerWord_pos (bitsNeeded_word_le v))
  simp only [packN, List.length_singleton, fieldWidth_singleton, hlen, writeSlots, and_maskLow_bitsNeeded]
  rw [Nat.zero_div, Nat.zero_mod, Nat.zero_mul, Nat.shiftLeft_zero]
  exact orWord_zero_singleton v

/-! ### The three boundaries -/

theorem compressX_of_zero {s : State} {n : Nat} (hn : n ≤ s.params.nmax) (hzero : ∀ j, j < n → s.readSrc j = 0) :
    ∃ t, exec (.compressX n) s = .next t ∧ t.unitX.k = 0 ∧ t.unitX.buf = [] ∧
      ∀ i : Nat, i < n → exec (.getX i) t = .next (t.reply 0) := by
  have haccepted := sourceAccepted_of_zero hn hzero
  have hwidth := fieldWidth_source_of_zero hzero
  refine ⟨_, exec_compressX_of_accepted haccepted, BitVec.eq_of_toNat_eq ((packX_k _).trans hwidth),
    packX_buf_eq_nil hwidth, fun i hi => getElement_of_eq_some _ ?_ ?_⟩
  · rwa [State.reply_unitX, haccepted.packX_n]
  · rw [State.reply_unitX, element_packX_source s hi, hzero i hi]

theorem compressN_of_zero {s : State} {n : Nat} (hn : n ≤ s.params.nmax) (hzero : ∀ j, j < n → s.readSrc j = 0) :
    ∃ t, exec (.compressN n) s = .next t ∧ t.unitN.k = 0 ∧
      ∀ i : Nat, i < n → exec (.getN i) t = .next (t.reply 0) := by
  have haccepted := sourceAccepted_of_zero hn hzero
  have hwidth := fieldWidth_source_of_zero hzero
  refine ⟨_, exec_compressN_of_accepted haccepted, BitVec.eq_of_toNat_eq ((packN_k _).trans hwidth),
    fun i hi => getElement_of_eq_some _ ?_ ?_⟩
  · rwa [State.reply_unitN, haccepted.packN_n]
  · rw [State.reply_unitN, element_packN_source s hi, hzero i hi]

theorem sourceAccepted_one_iff (s : State) : sourceAccepted s 1 ↔ (s.readSrc 0).toNat < 2 ^ s.params.width := by
  simp only [sourceAccepted, s.params.one_le_nmax, true_and, Nat.lt_one_iff, forall_eq]

/-- Settles O26: an all-zero sequence has width 0; the greatest value of the domain has width VBITS and fills its word
from bit 0 on; and `0xFFFFFFFF` is outside the domain of 31 bits. -/
theorem boundaryWidths : Obligations.BoundaryWidths := by
  refine ⟨fun s n hn hzero => ⟨compressX_of_zero hn hzero, compressN_of_zero hn hzero⟩, fun s hmax => ?_,
    fun s hvbits hword => exec_compressX_of_not_accepted ?_⟩
  · have haccepted : sourceAccepted s 1 :=
      (sourceAccepted_one_iff s).mpr (hmax ▸ Nat.sub_one_lt (Nat.two_pow_pos _).ne')
    have hwidth : bitsNeeded (s.readSrc 0).toNat = s.params.width := by rw [hmax, bitsNeeded_two_pow_sub_one]
    have hpos : 0 < bitsNeeded (s.readSrc 0).toNat := by
      rcases s.params.width_cases with h | h <;> omega
    have hfield : fieldWidth (s.source 1) = s.params.width := by rw [source_one, fieldWidth_singleton, hwidth]
    exact ⟨⟨_, exec_compressX_of_accepted haccepted, (packX_k _).trans hfield, packX_singleton_buf hpos⟩,
      ⟨_, exec_compressN_of_accepted haccepted, (packN_k _).trans hfield, packN_singleton_buf _⟩⟩
  · rw [sourceAccepted_one_iff, hword, Params.width, hvbits]
    decide

end Sys2Proof.Machine
end

section
/-! PROOFS. GET.N and DECOMPRESS.N in every state with unit N's invariants (R138, R139). -/

namespace Sys2Proof.Machine

theorem exec_decompressN (dlen : Nat) (s : State) :
    exec (.decompressN dlen) s = fillDestination s.unitN.n s.unitN.element dlen s := rfl

/-- With unit N's invariants GET.N replies the masked slot of one word. -/
theorem NUnit.Inv.exec_getN {p : Params} {s : State} (h : s.unitN.Inv p) {i : Nat} (hi : i < s.unitN.n.toNat) :
    ∃ x v : Word, s.unitN.buf[i / s.unitN.fieldsPerWord.toNat]? = some x ∧
      v = (x >>> (i % s.unitN.fieldsPerWord.toNat * s.unitN.k.toNat)) &&& maskLow s.unitN.k.toNat ∧
      s.unitN.element i = some v ∧ exec (.getN i) s = .next (s.reply v) :=
  have ⟨x, hword, helement⟩ := h.element_eq hi
  ⟨x, _, hword, rfl, helement, getElement_of_eq_some s hi helement⟩

/-- Settles O30: inside, the word read exists by R25; outside, it is the shared `get` that raises. -/
theorem getNReturnsSlot : Obligations.GetNReturnsSlot := by
  refine ⟨fun arg => decode_commandWord .n (op := 2) (by decide) arg,
    fun s i hout => getElement_outside s.unitN.element s hout, fun s i h hi => ?_⟩
  obtain ⟨x, _, hword, rfl, -, hget⟩ := h.exec_getN hi
  exact ⟨x, hword, hget⟩

/-- Settles O35: each word put in DST is the slot GET.N replies. -/
theorem decompressNFillsDestination : Obligations.DecompressNFillsDestination := by
  refine ⟨fun arg => decode_commandWord .n (op := 3) (by decide) arg,
    fun s dlen hlength => fillDestination_of_ne s.unitN.element s hlength, fun s h => ?_⟩
  obtain ⟨m, hfill, hinside, houtside⟩ := fillDestination_of_elementsExist s h.elementsExist
  refine ⟨m, hfill, fun i hi => ?_, houtside⟩
  obtain ⟨x, v, hword, hslot, helement, hget⟩ := h.exec_getN hi
  exact ⟨x, v, hword, hslot, (hinside i hi).trans helement, hget⟩

end Sys2Proof.Machine
end

section
/-! PROOFS. COMPRESS.N of an accepted sequence, bit by bit (R136, R137). -/

namespace Sys2Proof.Machine

theorem fieldsPerWord_zero : fieldsPerWord 0 = 1 := if_pos rfl

theorem fieldsPerWord_of_pos {k : Nat} (hpos : 1 ≤ k) : fieldsPerWord k = 32 / k := if_neg (by omega)

/-- The slot of index `i` ends at or below the end of the last slot of its word (R136). -/
theorem slot_add_width_le {fpw : Nat} (hfpw : 0 < fpw) (i k : Nat) : i % fpw * k + k ≤ fpw * k :=
  calc i % fpw * k + k = (i % fpw + 1) * k := (Nat.succ_mul (i % fpw) k).symm
    _ ≤ fpw * k := Nat.mul_le_mul_right k (Nat.mod_lt i hfpw)

/-- Bit `b` of slot `i` is bit `b` of value `i`. -/
theorem bufBit_packN_slot {vs : List Word} {i b : Nat} (hi : i < vs.length) (hb : b < fieldWidth vs) :
    bufBit (packN vs).buf (32 * (i / fieldsPerWord (fieldWidth vs)) +
      (i % fieldsPerWord (fieldWidth vs) * fieldWidth vs + b)) = vs[i].getLsbD b := by
  have hslot := slot_add_width_le (fieldsPerWord_pos (fieldWidth_le vs)) i (fieldWidth vs)
  have hword := fieldsPerWord_mul_le (fieldWidth vs)
  have hindex := Nat.div_add_mod' i (fieldsPerWord (fieldWidth vs))
  rw [bufBit_packN _ _ _ (by omega), div_eq_of_mem_field (Nat.le_add_right _ b) (by omega), hindex,
    Nat.mul_add_mod', Nat.mod_eq_of_lt hb, decide_eq_true ⟨by omega, hi⟩, Bool.true_and, List.getD_eq_getElem _ _ hi]

/-- Above the slots of a word, and in the slots after the last value, every bit is zero. -/
theorem bufBit_packN_unused {vs : List Word} {j b : Nat} (hb : b < 32)
    (hunused : fieldsPerWord (fieldWidth vs) * fieldWidth vs ≤ b ∨
      vs.length ≤ j * fieldsPerWord (fieldWidth vs) + b / fieldWidth vs) :
    bufBit (packN vs).buf (32 * j + b) = false := by
  rw [bufBit_packN vs j b hb, decide_eq_false (by omega), Bool.false_and]

/-- Settles O20: the unit COMPRESS.N installs is `packN` of the source; its slots are read back bit by bit, and the
other bits of its words are never written. -/
theorem compressNPacksInWords : Obligations.CompressNPacksInWords := by
  refine ⟨fun arg => decode_commandWord .n (op := 1) (by decide) arg, fun s n haccepted => ?_,
    fun _ _ => exec_compressN_of_not_accepted⟩
  refine ⟨packN (s.source n), exec_compressN_of_accepted haccepted, haccepted.packN_n, packN_k _, ?_⟩
  rw [packN_k, packN_fpw, packN_length, State.length_source]
  refine ⟨fun hzero => ?_, fieldsPerWord_of_pos, rfl, fun i hi => ?_, fun j b hb hunused => ?_, ?_⟩
  · rw [hzero, fieldsPerWord_zero]
  · have hi' : i < (s.source n).length := by rwa [State.length_source]
    rw [← State.getElem_source_eq s hi']
    exact ⟨lt_pow_fieldWidth (List.getElem_mem hi'), fun b hb => bufBit_packN_slot hi' hb⟩
  · exact bufBit_packN_unused hb (by rwa [State.length_source])
  · rintro rfl
    rw [State.source_zero, packN_nil]

end Sys2Proof.Machine
end

section
/-! PROOFS. What COMPRESS.N packed, GET.N, DECOMPRESS.N and LENGTH.N return (R141), and what the shared `decompress`
and `length` answer for a sequence whose elements are known. -/

namespace Sys2Proof.Machine

/-- DECOMPRESS of a sequence with the elements `v 0`, `v 1`, ... puts them at the first words of DST (R52, R181). -/
theorem fillDestination_of_eq_some {n : Word} {element : Nat → Option Word} {len : Nat} {v : Nat → Word} (s : State)
    (hn : n.toNat = len) (helement : ∀ i, i < len → element i = some (v i)) : ∃ m : Memory,
    fillDestination n element len s = .next (({ s with dst := m } : State).reply 0) ∧
      (∀ i, i < len → m.read i = some (v i)) ∧ ∀ j, len ≤ j → m.read j = s.dst.read j := by
  subst hn
  obtain ⟨m, hfill, hinside, houtside⟩ := fillDestination_of_elementsExist s fun i hi => ⟨v i, helement i hi⟩
  exact ⟨m, hfill, fun i hi => (hinside i hi).trans (helement i hi), houtside⟩

theorem lengthOf_of_toNat_eq {n : Word} {len : Nat} (s : State) (hn : n.toNat = len) :
    lengthOf n s = .next (s.reply (BitVec.ofNat 32 len)) := by
  rw [lengthOf, ← hn, BitVec.ofNat_toNat, BitVec.setWidth_eq]

theorem exec_lengthN (arg : Word) (s : State) : exec (.lengthN arg) s = lengthOf s.unitN.n s := rfl

/-- Settles O38: a successful COMPRESS.N left `packN` of an accepted source, whose elements are the source words; a
bit position in a slot determines the slot. -/
theorem noCrossRoundTrip : Obligations.NoCrossRoundTrip := by
  intro s t u n hcompress hok hunit
  rw [exec_compressN] at hcompress
  obtain ⟨haccepts, rfl⟩ := compressInto_ok hok hcompress
  change u.unitN = packN (s.source n) at hunit
  have hn : u.unitN.n.toNat = n := hunit ▸ sourceAccepted.packN_n ((s.accepts_iff n).mp haccepts)
  have helement : ∀ i, i < n → u.unitN.element i = some (s.readSrc i) := fun i hi =>
    hunit ▸ element_packN_source s hi
  refine ⟨fun i hi => getElement_of_eq_some u (hn.symm ▸ hi) (helement i hi),
    fillDestination_of_eq_some u hn helement, fun _ => lengthOf_of_toNat_eq u hn, ?_⟩
  rw [State.reply_unitN, packN_fpw, packN_k]
  exact ⟨fieldsPerWord_mul_le _, fun i _ => slot_add_width_le (fieldsPerWord_pos (fieldWidth_le _)) i _,
    fun slot slot' b hne hlo hhi ⟨hlo', hhi'⟩ =>
      hne ((div_eq_of_mem_field hlo hhi).symm.trans (div_eq_of_mem_field hlo' hhi'))⟩

end Sys2Proof.Machine
end

section
/-! PROOFS. Units X and N on one sequence (R142): where the slots fill a word, writing end to end and writing in words
are the same. -/

namespace Sys2Proof.Machine

theorem ceilDiv_one (a : Nat) : ceilDiv a 1 = a := Nat.div_one a

theorem ceilDiv_mul_mul_right (a b : Nat) {k : Nat} (hk : 0 < k) (hb : 0 < b) :
    ceilDiv (a * k) (b * k) = ceilDiv a b := by
  obtain ⟨b, rfl⟩ := Nat.exists_eq_succ_of_ne_zero hb.ne'
  have hsum : a * k + (b + 1) * k - 1 = k * (a + b) + (k - 1) := by
    rw [Nat.succ_mul, Nat.mul_add, Nat.mul_comm k, Nat.mul_comm k]
    omega
  rw [ceilDiv, hsum, Nat.mul_comm (b + 1), ← Nat.div_div_eq_div_mul, Nat.mul_add_div hk,
    Nat.div_eq_of_lt (Nat.sub_lt hk Nat.one_pos)]
  rfl

/-- Where the slots fill a word, field `i` end to end is slot `i % fpw` of word `i / fpw`. -/
theorem writeField_eq_orWord_slot {fpw k : Nat} (hfill : fpw * k = 32) (i v : Nat) (B : List Word) :
    writeField B (i * k) k v = orWord B (i / fpw) ((v % 2 ^ k) <<< (i % fpw * k)) := by
  have hfpw : 0 < fpw := Nat.pos_of_ne_zero (by rintro rfl; omega)
  have hk : 0 < k := Nat.pos_of_ne_zero (by rintro rfl; omega)
  have hword : i * k / 32 = i / fpw := by rw [← hfill, Nat.mul_div_mul_right _ _ hk]
  have hoffset : i * k % 32 = i % fpw * k := by rw [← hfill, Nat.mul_mod_mul_right]
  rw [writeField_of_fits B v (by rw [hoffset, ← hfill]; exact slot_add_width_le hfpw i k), hword, hoffset]

theorem writeFields_eq_writeSlots {fpw k : Nat} (hfill : fpw * k = 32) (i : Nat) (vs B : List Word) :
    writeFields k i (vs.map fun v => (v &&& maskLow k).toNat) B = writeSlots fpw k i vs B := by
  induction vs generalizing i B with
  | nil => rfl
  | cons v vs ih =>
    rw [List.map_cons, writeFields, writeSlots, ih, writeField_eq_orWord_slot hfill, toNat_and_maskLow, Nat.mod_mod]

/-- A value of no bits adds nothing to its word. -/
theorem writeSlots_zero (fpw i : Nat) (vs B : List Word) : writeSlots fpw 0 i vs B = B := by
  induction vs generalizing i B with
  | nil => rfl
  | cons v vs ih =>
    rw [writeSlots, ih, toNat_and_maskLow, Nat.pow_zero, Nat.mod_one, Nat.zero_shiftLeft, orWord_zero]

theorem packX_buf_eq_packN_buf {vs : List Word} (hpos : 1 ≤ fieldWidth vs) (hdvd : fieldWidth vs ∣ 32) :
    (packX vs).buf = (packN vs).buf := by
  have hfill : fieldsPerWord (fieldWidth vs) * fieldWidth vs = 32 := by
    rw [fieldsPerWord_of_pos hpos, Nat.div_mul_cancel hdvd]
  have hlen : ceilDiv (vs.length * fieldWidth vs) 32 = ceilDiv vs.length (fieldsPerWord (fieldWidth vs)) := by
    rw [← ceilDiv_mul_mul_right vs.length _ hpos (fieldsPerWord_pos (fieldWidth_le vs)), hfill]
  rw [packX, hlen, writeFields_eq_writeSlots hfill, packN]

theorem packN_buf_eq_replicate {vs : List Word} (hwidth : fieldWidth vs = 0) :
    (packN vs).buf = List.replicate vs.length 0 := by
  rw [packN, hwidth, writeSlots_zero, fieldsPerWord_zero, ceilDiv_one, zeroBuffer]

/-- Settles O25: both units take `fieldWidth` of the source; where it divides 32 the slots fill a word, and where it is
0 unit X has no bits to hold while unit N has a word for each value. -/
theorem crossAndNoCrossAgree : Obligations.CrossAndNoCrossAgree := by
  intro s tx tn n haccepted hx hn
  cases (exec_compressX_of_accepted haccepted).symm.trans hx
  cases (exec_compressN_of_accepted haccepted).symm.trans hn
  rw [State.reply_unitX, State.reply_unitN, packX_k]
  refine ⟨rfl, packX_buf_eq_packN_buf, fun hwidth => ⟨packX_buf_eq_nil hwidth, ?_⟩⟩
  rw [packN_buf_eq_replicate hwidth, State.length_source]

end Sys2Proof.Machine
end

section
/-! PROOFS. The overflow flag's encoder and decoder (R150, R151). -/

namespace Sys2Proof.Machine

theorem decField_encField {flag : Nat} (content : Nat) (hflag : flag < 2) :
    decField (encField flag content) = (flag, content) := by
  refine Prod.ext ?_ ?_
  · rw [decField_fst, encField_eq content hflag]
    omega
  · rw [decField_snd, encField_eq content hflag]
    omega

/-- The flag takes one bit beside the content. -/
theorem encField_lt {flag content w : Nat} (hflag : flag < 2) (hw : 1 ≤ w) (hcontent : content < 2 ^ (w - 1)) :
    encField flag content < 2 ^ w := by
  have hpow : 2 ^ (w - 1) * 2 = 2 ^ w := Nat.pow_pred_mul hw
  rw [encField_eq content hflag]
  omega

/-- Settles O16: the encoded field is `2 * content + flag`, whose remainder and quotient by 2 decoding takes. -/
theorem flagCodecRoundTrip : Obligations.FlagCodecRoundTrip := fun _ content hflag =>
  ⟨encField_eq content hflag, decField_encField content hflag, fun _ => encField_lt hflag⟩

end Sys2Proof.Machine
end

section
/-! PROOFS. The field-width search (R152 to R154). -/

namespace Sys2Proof.Machine

/-! ### The quantities of the search -/

theorem overflowCountAt_eq_length_filter (bs : List Nat) (k : Nat) :
    overflowCountAt bs k = (bs.filter fun b => decide (k < b)).length := List.countP_eq_length_filter

/-- A wider field lets fewer values overflow. -/
theorem overflowCountAt_anti (bs : List Nat) {j k : Nat} (hjk : j ≤ k) :
    overflowCountAt bs k ≤ overflowCountAt bs j :=
  List.countP_mono_left fun _ _ hb => decide_eq_true (hjk.trans_lt (of_decide_eq_true hb))

/-- Nothing overflows the greatest width. -/
theorem overflowCountAt_of_maxOf_le {bs : List Nat} {k : Nat} (hmax : maxOf bs ≤ k) : overflowCountAt bs k = 0 :=
  List.countP_eq_zero.mpr fun _ hb hover =>
    Nat.not_lt_of_le ((le_maxOf hb).trans hmax) (of_decide_eq_true hover)

@[simp] theorem indexBits_zero : indexBits 0 = 0 := rfl

theorem indexBits_of_pos {count : Nat} (hpos : 0 < count) : indexBits count = bitsNeeded (count - 1) := if_pos hpos

theorem fieldBits_of_maxOf_le {bs : List Nat} {k : Nat} (hmax : maxOf bs ≤ k) : fieldBits bs k = 1 + k := by
  rw [fieldBits, overflowCountAt_of_maxOf_le hmax, indexBits_zero, Nat.max_zero]

/-- With no table the total is that of the fields alone. -/
theorem totalBits_of_maxOf_le {bs : List Nat} {k : Nat} (hmax : maxOf bs ≤ k) :
    totalBits bs k = bs.length * (1 + k) := by
  rw [totalBits, fieldBits_of_maxOf_le hmax, overflowCountAt_of_maxOf_le hmax, Nat.zero_mul, Nat.add_zero]

theorem indexBits_overflowCountAt_le (bs : List Nat) (k : Nat) :
    indexBits (overflowCountAt bs k) ≤ bitsNeeded (bs.length - 1) := by
  rcases Nat.eq_zero_or_pos (overflowCountAt bs k) with hzero | hpos
  · rw [hzero, indexBits_zero]
    exact Nat.zero_le _
  · rw [indexBits_of_pos hpos]
    exact bitsNeeded_mono (Nat.sub_le_sub_right (overflowCountAt_le bs k) 1)

/-! ### The width selected -/

/-- Where every width is 0, candidate 1 costs twice what candidate 0 does and is never strictly better. -/
theorem bestWidth_of_maxOf_eq_zero {bs : List Nat} (hmax : maxOf bs = 0) : bestWidth bs = 0 := by
  have hlast : lastCandidate bs = 1 := by rw [lastCandidate, hmax, Nat.max_zero]
  have hle : bestWidth bs ≤ 1 := hlast ▸ bestWidth_le bs
  refine Nat.le_zero.mp (Nat.not_lt.mp fun hpos => ?_)
  have hbetter := bestWidth_first bs 0 hpos
  rw [totalBits_of_maxOf_le hmax.le, totalBits_of_maxOf_le (by omega)] at hbetter
  exact absurd (Nat.lt_of_mul_lt_mul_left hbetter) (by omega)

/-- The widths of a sequence in the value domain are at most VBITS. -/
theorem maxOf_widthsOf_le {p : Params} {vs : List Word} (hdomain : ∀ v ∈ vs, v.toNat < 2 ^ p.width) :
    maxOf (widthsOf vs) ≤ p.width := by
  refine (maxOf_mem (widthsOf vs)).elim (fun hzero => hzero ▸ Nat.zero_le _) fun hmem => ?_
  obtain ⟨v, hv, hwidth⟩ := List.mem_map.mp hmem
  exact hwidth ▸ (bitsNeeded_le_iff _ _).mpr (hdomain v hv)

theorem lastCandidate_le_width {p : Params} {vs : List Word} (hdomain : ∀ v ∈ vs, v.toNat < 2 ^ p.width) :
    lastCandidate (widthsOf vs) ≤ p.width :=
  max_le (by rcases p.width_cases with hwidth | hwidth <;> omega) (maxOf_widthsOf_le hdomain)

/-- The index bits never widen a field beyond VBITS + 1: a table has fewer than `2^31` entries. -/
theorem fieldBits_bestWidth_le_width {p : Params} {vs : List Word} (hdomain : ∀ v ∈ vs, v.toNat < 2 ^ p.width)
    (hlength : vs.length ≤ 2147483647) : fieldBits (widthsOf vs) (bestWidth (widthsOf vs)) ≤ p.width + 1 := by
  have hbest := bestWidth_le_width p vs hdomain
  have hcount := overflowCountAt_le (widthsOf vs) (bestWidth (widthsOf vs))
  rw [length_widthsOf] at hcount
  have hindex := indexBits_le (hcount.trans hlength)
  rcases p.width_cases with hwidth | hwidth <;> rw [fieldBits] <;> omega

/-! ### The histogram of widths -/

theorem sum_map_count_cons (js bs : List Nat) (b : Nat) :
    (js.map fun j => (b :: bs).count j).sum = (js.map fun j => bs.count j).sum + js.count b := by
  induction js with
  | nil => rfl
  | cons j js ih =>
    rw [List.map_cons, List.map_cons, List.sum_cons, List.sum_cons, ih, List.count_cons, List.count_cons,
      BEq.comm (a := j)]
    omega

theorem count_filter_range {n b : Nat} (k : Nat) (hb : b < n) :
    ((List.range n).filter fun j => decide (k < j)).count b = if k < b then 1 else 0 := by
  rw [(List.nodup_range.filter _).count]
  exact if_congr (by rw [List.mem_filter, List.mem_range, decide_eq_true_eq, and_iff_right hb]) rfl rfl

/-- The widths above `k`, counted one width at a time (R154). -/
theorem overflowCountAt_eq_sum_count (k : Nat) {n : Nat} {bs : List Nat} (hbs : ∀ b ∈ bs, b < n) :
    overflowCountAt bs k = (((List.range n).filter fun j => decide (k < j)).map fun j => bs.count j).sum := by
  induction bs with
  | nil => simp [overflowCountAt]
  | cons b bs ih =>
    obtain ⟨hb, hrest⟩ := List.forall_mem_cons.mp hbs
    rw [sum_map_count_cons, count_filter_range k hb, ← ih hrest, overflowCountAt, List.countP_cons, overflowCountAt]
    simp only [decide_eq_true_eq]

/-! ### The obligations of the search -/

/-- Settles O27: the invariant of the search's loop holds at the last candidate, and `packO` takes its parameters from
the winner, each within the width of its register. -/
theorem searchPicksLeastOptimum : Obligations.SearchPicksLeastOptimum :=
  ⟨rfl, fun bs => ⟨fun k => ⟨overflowCountAt_eq_length_filter bs k, rfl, rfl⟩, bestWidth_le bs,
      bestWidth_min bs, bestWidth_first bs⟩,
    fun vs hlength => ⟨packO_petitK hlength, packO_bitsChamp hlength,
      (packO_count hlength).trans (overflowCountAt_widthsOf vs _).symm⟩⟩

/-- Any candidate below 32 sends both values to a table of 64 bits, which costs more than two fields of 33 bits. -/
theorem bestWidth_two_wide : bestWidth [32, 32] = 32 := by
  have hle : bestWidth [32, 32] ≤ 32 := bestWidth_le [32, 32]
  refine hle.antisymm (Nat.not_lt.mp fun hlt => ?_)
  have hmin : totalBits [32, 32] (bestWidth [32, 32]) ≤ 66 := bestWidth_min [32, 32] 32 (by decide)
  have htable : overflowCountAt [32, 32] (bestWidth [32, 32]) = 2 := List.countP_eq_length.mpr (by simp [hlt])
  have hindex : indexBits 2 = 1 := rfl
  rw [totalBits, fieldBits, htable, hindex, List.length_cons, List.length_singleton] at hmin
  omega

/-- Two values that need all 32 bits: the search ends with a field of 33 bits (R154). -/
theorem search_of_two_wide :
    totalBits (widthsOf [0xFFFFFFFF, 0x80000000]) 0 = 68 ∧ totalBits (widthsOf [0xFFFFFFFF, 0x80000000]) 32 = 66 ∧
      bestWidth (widthsOf [0xFFFFFFFF, 0x80000000]) = 32 ∧ fieldBits (widthsOf [0xFFFFFFFF, 0x80000000]) 32 = 33 := by
  have hwidths : widthsOf [0xFFFFFFFF, 0x80000000] = [32, 32] := by decide
  rw [hwidths]
  exact ⟨rfl, rfl, bestWidth_two_wide, rfl⟩

/-- Settles O28: widths of at least `bitsMax` leave no table, the bounds are those of the value domain and of NMAX, and
the rest is the search's optimality and the histogram of its widths. -/
theorem searchFacts : Obligations.SearchFacts :=
  ⟨fun _ vs hdomain hlength => ⟨bestWidth_le (widthsOf vs), lastCandidate_le_width hdomain, Nat.le_add_right 1 _,
      fieldBits_bestWidth_le_width hdomain hlength⟩,
    fun bs _ _ => overflowCountAt_anti bs,
    fun _ _ => overflowCountAt_of_maxOf_le,
    fun _ _ => totalBits_of_maxOf_le le_rfl,
    fun bs hmax => ⟨(totalBits_of_maxOf_le hmax.le).trans (Nat.mul_one _),
      (totalBits_of_maxOf_le (hmax.trans_le (Nat.zero_le 1))).trans (Nat.mul_comm _ 2), bestWidth_of_maxOf_eq_zero hmax,
      fieldBits_of_maxOf_le hmax.le, overflowCountAt_of_maxOf_le hmax.le⟩,
    indexBits_overflowCountAt_le,
    fun bs hlength => (bitsNeeded_le_iff _ 31).mpr (by omega),
    search_of_two_wide,
    bestWidth_min,
    fun bs k hbs => overflowCountAt_eq_sum_count k fun b hb => Nat.lt_succ_of_le (hbs b hb)⟩

end Sys2Proof.Machine
end

section
/-! PROOFS. COMPRESS.O of an accepted sequence: its parameters, its table and its fields (R156 to R158). -/

namespace Sys2Proof.Machine

section
variable {s : State} {n : Nat}

theorem exec_compressO_of_accepted (haccepted : sourceAccepted s n) : exec (.compressO n) s =
    .next (({ s with unitO := packO (s.source n) } : State).reply 0) := by
  rw [exec_compressO, compressInto_of_accepted _ haccepted]

theorem sourceAccepted.length_le (haccepted : sourceAccepted s n) : (s.source n).length ≤ 2147483647 := by
  rw [State.length_source]
  exact haccepted.1.trans s.params.nmax_le

theorem sourceAccepted.packO_n (haccepted : sourceAccepted s n) : (packO (s.source n)).n.toNat = n :=
  (Machine.packO_n haccepted.length_le).trans (s.length_source n)

theorem sourceAccepted.inv_packO (haccepted : sourceAccepted s n) : (packO (s.source n)).Inv s.params :=
  have ⟨hlength, hdomain⟩ := State.accepts_source ((s.accepts_iff n).mpr haccepted)
  packO_inv s.params _ hlength hdomain

end

theorem overflows_iff (k : Nat) (v : Word) : overflows k v = true ↔ k < bitsNeeded v.toNat := decide_eq_true_iff

theorem fieldAt_of_overflow {vs : List Word} {v : Word} (i : Nat)
    (hover : bestWidth (widthsOf vs) < bitsNeeded v.toNat) :
    fieldAt vs i v = encField 1 (rankOf (bestWidth (widthsOf vs)) vs i) :=
  if_pos ((overflows_iff _ _).mpr hover)

theorem fieldAt_of_fits {vs : List Word} {v : Word} (i : Nat) (hfits : bitsNeeded v.toNat ≤ bestWidth (widthsOf vs)) :
    fieldAt vs i v = encField 0 v.toNat :=
  if_neg ((overflows_iff _ _).not.mpr (Nat.not_lt_of_le hfits))

/-- Field `i` of the packed source, by the source word it stands for. -/
theorem field_packO_source {s : State} {n i : Nat} (haccepted : sourceAccepted s n) (hi : i < n) :
    (packO (s.source n)).field i = some (fieldAt (s.source n) i (s.readSrc i)) := by
  rw [field_packO haccepted.length_le i (by rwa [State.length_source]), State.getElem_source_eq]

/-- Settles O21: the unit COMPRESS.O installs is `packO` of the source, whose fields are read back one by one; past
them is the zero tail of R27. -/
theorem compressOBuildsTableAndFields : Obligations.CompressOBuildsTableAndFields := by
  refine ⟨fun arg => decode_commandWord .o (op := 1) (by decide) arg, fun s n haccepted => ?_,
    fun _ _ => exec_compressO_of_not_accepted⟩
  have hlength := haccepted.length_le
  have htail := haccepted.inv_packO.tail
  rw [haccepted.packO_n] at htail
  refine ⟨packO (s.source n), exec_compressO_of_accepted haccepted, haccepted.packO_n, packO_petitK hlength, ?_⟩
  rw [packO_petitK hlength]
  refine ⟨packO_bitsChamp hlength, (packO_count hlength).trans (overflowCountAt_widthsOf _ _).symm, packO_ovt _, ?_,
    fun i hi hover => ?_, fun i hi hfits => ?_, htail, ?_⟩
  · rw [packO_length, packO_bitsChamp hlength, State.length_source]
  · exact (field_packO_source haccepted hi).trans (congrArg some (fieldAt_of_overflow i hover))
  · exact (field_packO_source haccepted hi).trans (congrArg some (fieldAt_of_fits i hfits))
  · rintro rfl
    rw [State.source_zero, packO_nil]

/-- The flag of a packed field is 1 exactly where the value overflows (R158). -/
theorem decField_fieldAt_fst_eq_one_iff (vs : List Word) (i : Nat) (v : Word) :
    (decField (fieldAt vs i v)).1 = 1 ↔ bestWidth (widthsOf vs) < bitsNeeded v.toNat := by
  rw [decField_fieldAt_fst, ← overflows_iff]
  simp only [ite_eq_left_iff, zero_ne_one, imp_false, not_not]

/-- Settles O22: a successful COMPRESS.O left `packO` of an accepted source, whose count and table are taken over the
source words, which SRC gives in ascending order of the index. -/
theorem overflowFlagTellsTruth : Obligations.OverflowFlagTellsTruth := by
  intro s t n hcompress hok
  rw [exec_compressO] at hcompress
  obtain ⟨haccepts, rfl⟩ := compressInto_ok hok hcompress
  have haccepted : sourceAccepted s n := (s.accepts_iff n).mp haccepts
  rw [State.reply_unitO, packO_petitK haccepted.length_le, packO_count haccepted.length_le, packO_ovt]
  refine ⟨fun i hi => ⟨_, field_packO_source haccepted hi, decField_fieldAt_fst_eq_one_iff _ i _⟩, ?_, ?_⟩
  · exact List.countP_map
  · exact List.filter_map

end Sys2Proof.Machine
end

section
/-! PROOFS. GET.O and DECOMPRESS.O in every state with unit O's invariants (R159, R160). -/

namespace Sys2Proof.Machine

theorem exec_decompressO (dlen : Nat) (s : State) :
    exec (.decompressO dlen) s = fillDestination s.unitO.n s.unitO.element dlen s := rfl

/-- With unit O's invariants GET.O replies the content of an unflagged field, and the table entry a flagged one refers
to. -/
theorem OUnit.Inv.exec_getO {p : Params} {s : State} (h : s.unitO.Inv p) {i : Nat} (hi : i < s.unitO.n.toNat) :
    ∃ f w, s.unitO.field i = some f ∧ ((decField f).1 = 0 → w.toNat = (decField f).2) ∧
      ((decField f).1 ≠ 0 → s.unitO.ovt[(decField f).2]? = some w) ∧ s.unitO.element i = some w ∧
      exec (.getO i) s = .next (s.reply w) := by
  obtain ⟨f, w, hfield, helement, hvalue⟩ := h.element_eq hi
  refine ⟨f, w, hfield, fun hzero => ?_, fun hne => ?_, helement, getElement_of_eq_some s hi helement⟩
  · rcases hvalue with ⟨-, hcontent⟩ | ⟨hone, -⟩
    · exact hcontent.symm
    · exact absurd (hzero.symm.trans hone) (by decide)
  · rcases hvalue with ⟨hzero, -⟩ | ⟨-, hentry⟩
    · exact absurd hzero hne
    · exact hentry

/-- Settles O31: inside, the field and the entry it may refer to exist by R27; outside, it is the shared `get` that
raises. -/
theorem getOReturnsContentOrEntry : Obligations.GetOReturnsContentOrEntry := by
  refine ⟨fun arg => decode_commandWord .o (op := 2) (by decide) arg,
    fun s i hout => getElement_outside s.unitO.element s hout, fun s i h hi => ?_⟩
  obtain ⟨f, w, hfield, hcontent, hentry, -, hget⟩ := h.exec_getO hi
  refine ⟨f, w, hfield, hcontent, fun hne => ⟨?_, hentry hne⟩, hget⟩
  rw [← h.ovt_len]
  exact (List.getElem?_eq_some_iff.mp (hentry hne)).1

/-- Settles O36: each word put in DST is the one GET.O replies. -/
theorem decompressOFillsDestination : Obligations.DecompressOFillsDestination := by
  refine ⟨fun arg => decode_commandWord .o (op := 3) (by decide) arg,
    fun s dlen hlength => fillDestination_of_ne s.unitO.element s hlength, fun s h => ?_⟩
  obtain ⟨m, hfill, hinside, houtside⟩ := fillDestination_of_elementsExist s h.elementsExist
  refine ⟨m, hfill, fun i hi => ?_, houtside⟩
  obtain ⟨f, w, hfield, hcontent, hentry, helement, hget⟩ := h.exec_getO hi
  exact ⟨f, w, hfield, hcontent, hentry, (hinside i hi).trans helement, hget⟩

end Sys2Proof.Machine
end

section
/-! PROOFS. What COMPRESS.O packed, GET.O, DECOMPRESS.O and LENGTH.O return (R162). -/

namespace Sys2Proof.Machine

/-- Element `i` of the packed source of unit O is the source word. -/
theorem element_packO_source {s : State} {n i : Nat} (haccepted : sourceAccepted s n) (hi : i < n) :
    (packO (s.source n)).element i = some (s.readSrc i) := by
  rw [element_packO haccepted.length_le i (by rwa [State.length_source]), State.getElem_source_eq]

theorem exec_lengthO (arg : Word) (s : State) : exec (.lengthO arg) s = lengthOf s.unitO.n s := rfl

/-- Settles O39: a successful COMPRESS.O left `packO` of an accepted source, whose elements are the source words. -/
theorem overflowRoundTrip : Obligations.OverflowRoundTrip := by
  intro s t u n hcompress hok hunit
  rw [exec_compressO] at hcompress
  obtain ⟨haccepts, rfl⟩ := compressInto_ok hok hcompress
  have haccepted : sourceAccepted s n := (s.accepts_iff n).mp haccepts
  change u.unitO = packO (s.source n) at hunit
  have hn : u.unitO.n.toNat = n := hunit ▸ haccepted.packO_n
  have helement : ∀ i, i < n → u.unitO.element i = some (s.readSrc i) := fun i hi =>
    hunit ▸ element_packO_source haccepted hi
  exact ⟨fun i hi => getElement_of_eq_some u (hn.symm ▸ hi) (helement i hi),
    fillDestination_of_eq_some u hn helement, fun _ => lengthOf_of_toNat_eq u hn⟩

end Sys2Proof.Machine
end

section
/-! PROOFS. Units are independent (R182): a command writes its own unit only, and what it does is determined by its
unit, SRC and the parameters. -/

namespace Sys2Proof.Machine

/-! ### What a command writes -/

/-- A command leaves the other units as they were: each case of `exec_next_cases` that replaces a unit names it. -/
theorem exec_keeps_otherUnits {i : Instr} {s t : State} (hexec : exec i s = .next t) :
    (unitOf i ≠ .x → t.unitX = s.unitX) ∧ (unitOf i ≠ .n → t.unitN = s.unitN) ∧
    (unitOf i ≠ .o → t.unitO = s.unitO) := by
  rcases exec_next_cases hexec with ⟨e, -, rfl⟩ | ⟨v, -, -, rfl⟩ | ⟨ws, -, rfl⟩ | ⟨hunit, -, u, -, rfl⟩ |
    ⟨hunit, -, u, -, rfl⟩ | ⟨hunit, -, u, -, rfl⟩
  case inl | inr.inl | inr.inr.inl => exact ⟨fun _ => rfl, fun _ => rfl, fun _ => rfl⟩
  · exact ⟨absurd hunit, fun _ => rfl, fun _ => rfl⟩
  · exact ⟨fun _ => rfl, absurd hunit, fun _ => rfl⟩
  · exact ⟨fun _ => rfl, fun _ => rfl, absurd hunit⟩

/-! ### What a command reads -/

/-- The two states agree on all a command of the unit may read: the parameters, SRC and that unit. -/
structure SameReads (tag : UnitTag) (s' s : State) : Prop where
  params : s'.params = s.params
  src : s'.src = s.src
  unitX : tag = .x → s'.unitX = s.unitX
  unitN : tag = .n → s'.unitN = s.unitN
  unitO : tag = .o → s'.unitO = s.unitO

theorem SameReads.refl (tag : UnitTag) (s : State) : SameReads tag s s :=
  ⟨rfl, rfl, fun _ => rfl, fun _ => rfl, fun _ => rfl⟩

/-- What a command that answers does to the state, as data apart from the state it is done to. -/
inductive Effect where
  | raise (e : Status)
  | reply (v : Word)
  | fillDst (ws : List Word)
  | setX (u : XUnit)
  | setN (u : NUnit)
  | setO (u : OUnit)

/-- The state an effect leaves: the named updates of the model, one per constructor. -/
def Effect.apply : Effect → State → State
  | .raise e, s => s.raise e
  | .reply v, s => s.reply v
  | .fillDst ws, s => ({ s with dst := s.dst.writeAll 0 ws } : State).reply 0
  | .setX u, s => ({ s with unitX := u } : State).reply 0
  | .setN u, s => ({ s with unitN := u } : State).reply 0
  | .setO u, s => ({ s with unitO := u } : State).reply 0

/-- The outcome of a command with this effect; none is the fault of U4. -/
def Effect.outcome : Option Effect → State → Host.Outcome State Fault Refusal
  | some e, s => .next (e.apply s)
  | none, _ => .fault .brokenUnit

theorem Effect.outcome_eq_next_iff {e : Option Effect} {s t : State} :
    Effect.outcome e s = .next t ↔ ∃ f, e = some f ∧ f.apply s = t := by
  cases e <;> simp [Effect.outcome]

/-- The effect of `get` is fixed by the elements, whatever the rest of the state. -/
theorem getElement_effect (n : Word) (element : Nat → Option Word) (i : Int) :
    ∃ e, ∀ s, getElement n element i s = Effect.outcome e s := by
  by_cases hout : i < 0 ∨ (n.toNat : Int) ≤ i
  · exact ⟨some (.raise .indexOutOfBounds), fun s => getElement_outside element s hout⟩
  · refine ⟨(element i.toNat).map .reply, fun s => ?_⟩
    rw [getElement, if_neg hout]
    cases element i.toNat <;> rfl

/-- The effect of `decompress` is fixed by the elements, whatever the rest of the state. -/
theorem fillDestination_effect (n : Word) (element : Nat → Option Word) (dlen : Nat) :
    ∃ e, ∀ s, fillDestination n element dlen s = Effect.outcome e s := by
  by_cases hlength : dlen ≠ n.toNat
  · exact ⟨some (.raise .invalidArgument), fun s => fillDestination_of_ne element s hlength⟩
  · refine ⟨(collect element 0 n.toNat).map .fillDst, fun s => ?_⟩
    rw [fillDestination, if_neg hlength]
    cases collect element 0 n.toNat <;> rfl

/-- The effect of `compress` is fixed by the parameters and SRC, where what it installs is fixed by the sequence. -/
theorem compressInto_effect {install : State → List Word → State} {installed : List Word → Effect}
    (hinstall : ∀ s vs, (install s vs).reply 0 = (installed vs).apply s) (n : Nat) (s : State) :
    ∃ e, ∀ s' : State, s'.params = s.params → s'.src = s.src → compressInto install n s' = Effect.outcome e s' := by
  refine ⟨some (if s.accepts n then installed (s.source n) else .raise .invalidArgument), fun s' hparams hsrc => ?_⟩
  have hread : ∀ j, j < n → s'.readSrc j = s.readSrc j := fun j _ => congrFun (State.readSrc_congr hsrc) j
  rw [compressInto, State.accepts_congr hparams fun _ => hread, State.source_congr hread, hinstall]
  cases s.accepts n <;> rfl

theorem exec_lengthX (arg : Word) (s : State) : exec (.lengthX arg) s = lengthOf s.unitX.n s := rfl

/-- A command has one and the same effect on all states that agree on what it may read. -/
theorem exec_effect (i : Instr) (s : State) :
    ∃ e, ∀ s', SameReads (unitOf i) s' s → exec i s' = Effect.outcome e s' := by
  cases i with
  | bitsNeeded v =>
    refine ⟨some (if inDomain s.params v then .reply (BitVec.ofNat 32 (bitsNeeded v)) else .raise .invalidArgument),
      fun s' h => ?_⟩
    rw [exec, execBitsNeeded, h.params]
    cases inDomain s.params v <;> rfl
  | maskLow k => exact ⟨some (.reply (maskLow k)), fun _ _ => rfl⟩
  | createX _ => exact ⟨some (.setX .reset), fun _ _ => rfl⟩
  | createN _ => exact ⟨some (.setN .reset), fun _ _ => rfl⟩
  | createO _ => exact ⟨some (.setO .reset), fun _ _ => rfl⟩
  | compressX n =>
    exact (compressInto_effect (installed := fun vs => .setX (packX vs)) (fun _ _ => rfl) n s).imp
      fun _ he s' h => he s' h.params h.src
  | compressN n =>
    exact (compressInto_effect (installed := fun vs => .setN (packN vs)) (fun _ _ => rfl) n s).imp
      fun _ he s' h => he s' h.params h.src
  | compressO n =>
    exact (compressInto_effect (installed := fun vs => .setO (packO vs)) (fun _ _ => rfl) n s).imp
      fun _ he s' h => he s' h.params h.src
  | getX i =>
    exact (getElement_effect s.unitX.n s.unitX.element i).imp
      fun _ he s' h => by rw [exec_getX, h.unitX rfl, he]
  | getN i =>
    exact (getElement_effect s.unitN.n s.unitN.element i).imp
      fun _ he s' h => by rw [exec_getN, h.unitN rfl, he]
  | getO i =>
    exact (getElement_effect s.unitO.n s.unitO.element i).imp
      fun _ he s' h => by rw [exec_getO, h.unitO rfl, he]
  | decompressX dlen =>
    exact (fillDestination_effect s.unitX.n s.unitX.element dlen).imp
      fun _ he s' h => by rw [exec_decompressX, h.unitX rfl, he]
  | decompressN dlen =>
    exact (fillDestination_effect s.unitN.n s.unitN.element dlen).imp
      fun _ he s' h => by rw [exec_decompressN, h.unitN rfl, he]
  | decompressO dlen =>
    exact (fillDestination_effect s.unitO.n s.unitO.element dlen).imp
      fun _ he s' h => by rw [exec_decompressO, h.unitO rfl, he]
  | lengthX _ => exact ⟨some (.reply s.unitX.n), fun s' h => by rw [exec_lengthX, h.unitX rfl]; rfl⟩
  | lengthN _ => exact ⟨some (.reply s.unitN.n), fun s' h => by rw [exec_lengthN, h.unitN rfl]; rfl⟩
  | lengthO _ => exact ⟨some (.reply s.unitO.n), fun s' h => by rw [exec_lengthO, h.unitO rfl]; rfl⟩

/-! ### The same effect on two states -/

theorem Effect.apply_response_eq (f : Effect) (s s' : State) : (f.apply s').response = (f.apply s).response := by
  cases f <;> rfl

/-- An effect keeps the agreement of two states: it leaves a field alone in both or puts the same there. -/
theorem SameReads.apply {tag : UnitTag} {s s' : State} (h : SameReads tag s' s) (f : Effect) :
    SameReads tag (f.apply s') (f.apply s) := by
  cases f with
  | raise _ | reply _ | fillDst _ => exact { h with }
  | setX _ => exact { h with unitX := fun _ => rfl }
  | setN _ => exact { h with unitN := fun _ => rfl }
  | setO _ => exact { h with unitO := fun _ => rfl }

/-- Where consecutive writes change a word of one memory, they leave that word in every memory. -/
theorem Memory.read_writeAll_of_changed {m : Memory} {k j : Nat} {ws : List Word}
    (hchanged : (m.writeAll k ws).read j ≠ m.read j) (m' : Memory) :
    (m'.writeAll k ws).read j = (m.writeAll k ws).read j := by
  rw [Memory.read_writeAll] at hchanged
  have hinside : k ≤ j ∧ j < k + ws.length := of_not_not fun hout => hchanged (if_neg hout)
  rw [Memory.read_writeAll, Memory.read_writeAll, if_pos hinside, if_pos hinside]

theorem Effect.apply_dst_of_changed {f : Effect} {s : State} {j : Nat}
    (hchanged : (f.apply s).dst.read j ≠ s.dst.read j) (s' : State) :
    (f.apply s').dst.read j = (f.apply s).dst.read j := by
  cases f with
  | fillDst ws => exact Memory.read_writeAll_of_changed hchanged s'.dst
  | raise _ | reply _ | setX _ | setN _ | setO _ => exact absurd rfl hchanged

/-- Settles O45: the frame is that of `exec` on the other units; two states that agree on what the command reads get
one effect, which answers the same and keeps their agreement. -/
theorem unitsAreIndependent : Obligations.UnitsAreIndependent := by
  intro i s t hexec
  obtain ⟨hX, hN, hO⟩ := exec_keeps_otherUnits hexec
  refine ⟨hX, hN, hO, fun s' hparams hsrc hunitX hunitN hunitO => ?_⟩
  have hreads : SameReads (unitOf i) s' s := ⟨hparams, hsrc, hunitX, hunitN, hunitO⟩
  obtain ⟨e, heffect⟩ := exec_effect i s
  rw [heffect s (.refl _ s), Effect.outcome_eq_next_iff] at hexec
  obtain ⟨f, rfl, rfl⟩ := hexec
  have hafter := hreads.apply f
  exact ⟨f.apply s', heffect s' hreads, f.apply_response_eq s s', hafter.unitX, hafter.unitN, hafter.unitO,
    fun _ hchanged => Effect.apply_dst_of_changed hchanged s'⟩

end Sys2Proof.Machine
end

section
/-! PROOFS. The host's moves that issue no command (R204, R50, R52, R210, R211; logs 4 and 23): what a step takes them
to. -/

namespace Sys2Proof.Machine

theorem step_of_idle {s : State} (hhost : s.host = []) : step s = .next s :=
  step_of_fetch_done (by simp only [State.fetch, hhost])

theorem step_of_writeSrc {s : State} {j : Nat} {v : Word} {rest : List HostMove}
    (hhost : s.host = .writeSrc j v :: rest) : step s = .next { s with src := s.src.write j v, host := rest } :=
  step_of_fetch_done (by simp only [State.fetch, hhost])

theorem step_of_writeDst {s : State} {j : Nat} {v : Word} {rest : List HostMove}
    (hhost : s.host = .writeDst j v :: rest) : step s = .next { s with dst := s.dst.write j v, host := rest } :=
  step_of_fetch_done (by simp only [State.fetch, hhost])

theorem step_of_powerOn {s : State} {rest : List HostMove} (hhost : s.host = .powerOn :: rest) :
    step s = .next ({ s with host := rest } : State).powerOn :=
  step_of_fetch_done (by simp only [State.fetch, hhost])

/-- Settles O5: a host write is `Memory.write` on its space, which reads back at its own index and nowhere else; a
power-on reset installs the units of `State.reset`. -/
theorem stepTakesHostMoves : Obligations.StepTakesHostMoves := fun s =>
  ⟨step_of_idle,
    fun j v _ hhost => ⟨s.src.write j v, step_of_writeSrc hhost, s.src.read_write_same j v,
      fun _ hother => s.src.read_write_other v hother⟩,
    fun j v _ hhost => ⟨s.dst.write j v, step_of_writeDst hhost, s.dst.read_write_same j v,
      fun _ hother => s.dst.read_write_other v hother⟩,
    fun _ hhost => step_of_powerOn hhost⟩

end Sys2Proof.Machine
end

section
/-! PROOFS. The statuses a command answers with and their causes (R190 to R195, R202): a command raises
InvalidArgument or IndexOutOfBounds exactly where its cause holds, and whatever else it answers is OK. -/

namespace Sys2Proof.Machine

/-! ### What a command answers -/

/-- A command that gives a next state raised one of two errors for a listed cause and did nothing else, or answers
OK. -/
theorem exec_answer_cases {i : Instr} {s t : State} (hexec : exec i s = .next t) :
    (invalidCause s i ∧ t = s.raise .invalidArgument) ∨ (indexCause s i ∧ t = s.raise .indexOutOfBounds) ∨
    ∃ v, t.response = some { status := .ok, result := v } := by
  rcases exec_next_cases hexec with ⟨e, ⟨rfl, hcause⟩ | ⟨rfl, hcause⟩, rfl⟩ | ⟨v, -, -, rfl⟩ | ⟨ws, -, rfl⟩ |
    ⟨-, -, u, -, rfl⟩ | ⟨-, -, u, -, rfl⟩ | ⟨-, -, u, -, rfl⟩
  · exact .inl ⟨hcause, rfl⟩
  · exact .inr (.inl ⟨hcause, rfl⟩)
  all_goals exact .inr (.inr ⟨_, rfl⟩)

theorem exec_response_isSome {i : Instr} {s t : State} (hexec : exec i s = .next t) : ∃ r, t.response = some r := by
  rcases exec_answer_cases hexec with ⟨-, rfl⟩ | ⟨-, rfl⟩ | ⟨_, hok⟩
  · exact ⟨_, rfl⟩
  · exact ⟨_, rfl⟩
  · exact ⟨_, hok⟩

/-- Settles O46: a status other than OK stands only in the two cases that raise, and `raise` writes the response
alone, with RESULT 0. -/
theorem errorsLeaveNoMark : Obligations.ErrorsLeaveNoMark := by
  intro i s t r hexec hresponse hstatus
  rcases exec_answer_cases hexec with ⟨-, rfl⟩ | ⟨-, rfl⟩ | ⟨v, hok⟩
  · cases hresponse; exact ⟨rfl, rfl⟩
  · cases hresponse; exact ⟨rfl, rfl⟩
  · cases hok.symm.trans hresponse
    exact absurd rfl hstatus

/-! ### Each cause raises its error -/

theorem exec_of_invalidCause {i : Instr} {s : State} (hcause : invalidCause s i) :
    exec i s = .next (s.raise .invalidArgument) := by
  cases i with
  | bitsNeeded v => exact exec_bitsNeeded_outside hcause
  | compressX n => exact exec_compressX_of_not_accepted ((not_sourceAccepted_iff s n).mpr hcause)
  | compressN n => exact exec_compressN_of_not_accepted ((not_sourceAccepted_iff s n).mpr hcause)
  | compressO n => exact exec_compressO_of_not_accepted ((not_sourceAccepted_iff s n).mpr hcause)
  | decompressX dlen => exact fillDestination_of_ne s.unitX.element s hcause
  | decompressN dlen => exact fillDestination_of_ne s.unitN.element s hcause
  | decompressO dlen => exact fillDestination_of_ne s.unitO.element s hcause
  | maskLow _ | createX _ | createN _ | createO _ | getX _ | getN _ | getO _ | lengthX _ | lengthN _ | lengthO _ =>
    exact hcause.elim

theorem exec_of_indexCause {i : Instr} {s : State} (hcause : indexCause s i) :
    exec i s = .next (s.raise .indexOutOfBounds) := by
  cases i with
  | getX i => exact getElement_outside s.unitX.element s hcause
  | getN i => exact getElement_outside s.unitN.element s hcause
  | getO i => exact getElement_outside s.unitO.element s hcause
  | bitsNeeded _ | maskLow _ | createX _ | createN _ | createO _ | compressX _ | compressN _ | compressO _
  | decompressX _ | decompressN _ | decompressO _ | lengthX _ | lengthN _ | lengthO _ => exact hcause.elim

/-- Settles O47: each listed cause raises InvalidArgument, and of the three ways a command answers only the raise for
such a cause has that status. -/
theorem invalidArgumentCauses : Obligations.InvalidArgumentCauses := by
  refine ⟨rfl, fun i s => ⟨fun hcause => ⟨_, _, exec_of_invalidCause hcause, rfl, rfl⟩, ?_⟩⟩
  rintro ⟨t, r, hexec, hresponse, hstatus⟩
  rcases exec_answer_cases hexec with ⟨hcause, -⟩ | ⟨-, rfl⟩ | ⟨v, hok⟩
  · exact hcause
  · cases hresponse; cases hstatus
  · cases hok.symm.trans hresponse; cases hstatus

/-- Settles O48: the shared `get` raises outside `[0, n)`, and of the three ways a command answers only that raise has
status IndexOutOfBounds. -/
theorem indexOutOfBoundsCause : Obligations.IndexOutOfBoundsCause := by
  refine ⟨rfl, fun i s => ⟨fun hcause => ⟨_, _, exec_of_indexCause hcause, rfl, rfl⟩, ?_⟩⟩
  rintro ⟨t, r, hexec, hresponse, hstatus⟩
  rcases exec_answer_cases hexec with ⟨-, rfl⟩ | ⟨hcause, -⟩ | ⟨v, hok⟩
  · cases hresponse; cases hstatus
  · exact hcause
  · cases hok.symm.trans hresponse; cases hstatus

/-! ### The statuses of each command's row -/

/-- A 32-bit word outside the value domain exists only with VBITS = 31 (R191). -/
theorem vbits_eq_b31_of_outside {p : Params} {v : Nat} (hword : v < 2 ^ 32) (hout : 2 ^ p.width ≤ v) :
    p.vbits = .b31 := by
  cases hvbits : p.vbits with
  | b31 => rfl
  | b32 =>
    have hwidth : p.width = 32 := congrArg VBits.toNat hvbits
    rw [hwidth] at hout
    exact absurd hword (Nat.not_lt_of_le hout)

theorem allowedStatus_ok (p : Params) (i : Instr) : allowedStatus p i .ok := by
  cases i with
  | maskLow _ | createX _ | createN _ | createO _ | lengthX _ | lengthN _ | lengthO _ => exact rfl
  | bitsNeeded _ | compressX _ | compressN _ | compressO _ | getX _ | getN _ | getO _ | decompressX _ | decompressN _
  | decompressO _ => exact .inl rfl

theorem allowedStatus_of_invalidCause {i : Instr} {s : State} (hwf : i.wellFormed = true) (hcause : invalidCause s i) :
    allowedStatus s.params i .invalidArgument := by
  cases i with
  | bitsNeeded v => exact .inr ⟨rfl, vbits_eq_b31_of_outside (of_decide_eq_true hwf) hcause⟩
  | compressX _ | compressN _ | compressO _ | decompressX _ | decompressN _ | decompressO _ => exact .inr rfl
  | maskLow _ | createX _ | createN _ | createO _ | getX _ | getN _ | getO _ | lengthX _ | lengthN _ | lengthO _ =>
    exact hcause.elim

theorem allowedStatus_of_indexCause {i : Instr} {s : State} (hcause : indexCause s i) :
    allowedStatus s.params i .indexOutOfBounds := by
  cases i with
  | getX _ | getN _ | getO _ => exact .inr rfl
  | bitsNeeded _ | maskLow _ | createX _ | createN _ | createO _ | compressX _ | compressN _ | compressO _
  | decompressX _ | decompressN _ | decompressO _ | lengthX _ | lengthN _ | lengthO _ => exact hcause.elim

/-- Settles O49: the row of each command allows OK and the error whose cause it can have, and with the invariants every
command gives a next state. -/
theorem commandsAnswerAllowedStatuses : Obligations.CommandsAnswerAllowedStatuses := by
  refine ⟨fun i s t hwf hexec => ?_, fun i s h => ?_⟩
  · rcases exec_answer_cases hexec with ⟨hcause, rfl⟩ | ⟨hcause, rfl⟩ | ⟨v, hok⟩
    · exact ⟨_, rfl, allowedStatus_of_invalidCause hwf hcause, nofun⟩
    · exact ⟨_, rfl, allowedStatus_of_indexCause hcause, nofun⟩
    · exact ⟨_, hok, allowedStatus_ok s.params i, nofun⟩
  · obtain ⟨t, hexec⟩ := exec_answers h i
    obtain ⟨r, hresponse⟩ := exec_response_isSome hexec
    exact ⟨t, r, hexec, hresponse⟩

end Sys2Proof.Machine
end

section
/-! PROOFS. GET.O of a flagged field, in every state: whether or not its table entry exists (R159; U3, log 8). -/

namespace Sys2Proof.Machine

/-- A field that can be read decides its element, also where R27 does not hold. -/
theorem OUnit.element_of_field {u : OUnit} {i f : Nat} (hfield : u.field i = some f) : u.element i = u.valueOf f :=
  congrArg (Option.bind · u.valueOf) hfield

theorem OUnit.valueOf_of_flagged (u : OUnit) {f : Nat} (hflag : (decField f).1 = 1) :
    u.valueOf f = some (u.entry (decField f).2) :=
  if_neg (by omega)

/-- GET.O of a flagged field replies the entry its content refers to, and changes nothing but the response. -/
theorem exec_getO_of_flagged {s : State} {i f : Nat} (hi : i < s.unitO.n.toNat) (hfield : s.unitO.field i = some f)
    (hflag : (decField f).1 = 1) : exec (.getO i) s = .next (s.reply (s.unitO.entry (decField f).2)) :=
  getElement_of_eq_some s hi ((OUnit.element_of_field hfield).trans (s.unitO.valueOf_of_flagged hflag))

/-- Settles O32: GET.O of a flagged field replies its entry whatever the table holds. Past the table the entry is the
model's free value, so the bound on the content is not needed to name a witness. -/
theorem strayFlagStillAnswersOk : Obligations.StrayFlagStillAnswersOk :=
  fun _ _ _ hi hfield hflag _ => ⟨_, exec_getO_of_flagged hi hfield hflag⟩

end Sys2Proof.Machine
end
